-- ==== Sys2Proof/Word.lean ====
section
/-! DEFINITION. The words of the command port and the two floating-point data types.

`F32` and `F64` (spec/00_scope.md R9) hold the bit pattern of an IEEE 754 binary32 or binary64 datum.
They are structures and not bit vectors, so that no bit-vector addition can be taken for a floating-point one. -/

namespace Sys2Proof

/-- One transfer on the command port (spec/20_memory.md R65). -/
abbrev Word := BitVec 32

/-- One byte of a word where a host lays words out in bytes (R65). -/
abbrev Byte := BitVec 8

/-- An IEEE 754 binary32 datum by its bit pattern (R9). -/
structure F32 where
  bits : BitVec 32
  deriving DecidableEq, Repr, Inhabited

/-- An IEEE 754 binary64 datum by its bit pattern (R9). -/
structure F64 where
  bits : BitVec 64
  deriving DecidableEq, Repr, Inhabited

end Sys2Proof
end

