-- ==== Sys2Proof/Syntax.lean ====
section
/-! DEFINITION. The ten commands of spec/30_encoding.md R85, one constructor per row of spec/opcode_table.json,
their opcodes, and the four kinds of precondition violation (spec/60_exceptions.md R201). -/

namespace Sys2Proof

/-- A command with its operands, in packet order (R81, R85). -/
inductive Instr where
  /-- `INIT` (R190). -/
  | init
  /-- `SET_CUTOFF value` (R191), Hz. -/
  | setCutoff (value : F32)
  /-- `SET_RESONANCE value` (R192). -/
  | setResonance (value : F32)
  /-- `SET_ENV_ACTIVE flag` (R163); the flag is header bit `arg[0]`. -/
  | setEnvActive (flag : Bool)
  /-- `SET_ENV_DECAY seconds` (R164). -/
  | setEnvDecay (seconds : F64)
  /-- `SET_ENV_SUSTAIN level` (R165). -/
  | setEnvSustain (level : F32)
  /-- `TRIG_ATTACK startCutoff, peakCutoff, attackTime, now` (R161). -/
  | trigAttack (startCutoff : F32) (peakCutoff : F32) (attackTime : F64) (now : F64)
  /-- `TRIG_RELEASE targetCutoff, releaseTime, now` (R162). -/
  | trigRelease (targetCutoff : F32) (releaseTime : F64) (now : F64)
  /-- `ADVANCE_ENV currentTime` (R166). -/
  | advanceEnv (currentTime : F64)
  /-- `PROCESS_BLOCK in[0], ..., in[N-1]` (R149). -/
  | processBlock (samples : List F32)
  deriving DecidableEq, Repr

/-- The opcode field's ten legal values, in the order of R85. -/
inductive Opcode where
  | init | setCutoff | setResonance | setEnvActive | setEnvDecay | setEnvSustain
  | trigAttack | trigRelease | advanceEnv | processBlock
  deriving DecidableEq, Repr

/-- The opcode of a command. -/
def Instr.opcode : Instr → Opcode
  | .init => .init
  | .setCutoff _ => .setCutoff
  | .setResonance _ => .setResonance
  | .setEnvActive _ => .setEnvActive
  | .setEnvDecay _ => .setEnvDecay
  | .setEnvSustain _ => .setEnvSustain
  | .trigAttack _ _ _ _ => .trigAttack
  | .trigRelease _ _ _ => .trigRelease
  | .advanceEnv _ => .advanceEnv
  | .processBlock _ => .processBlock

/-- The kinds of `Precondition` (R201), in the order in which they are checked (R206). -/
inductive Precondition where
  /-- The header's opcode is not in `0x00` to `0x09` (R202). -/
  | illegalOpcode
  /-- The header's `len` is not the command's operand count (R203). -/
  | badLength
  /-- A must-be-zero bit of the header's `arg` is 1 (R204). -/
  | badField
  /-- A well-formed command other than `INIT` before the first `INIT` (R205). -/
  | notInitialised
  deriving DecidableEq, Repr

end Sys2Proof
end

