-- ==== Sys2Proof/Machine/Operands.lean ====
section
/-! DEFINITION. The operand forms and the header's fields (spec/30_encoding.md R80, R81, R85) and the byte order of a
word (spec/20_memory.md R65). -/

namespace Sys2Proof

/-- `opcode`, header bits 7..0 (R80). -/
def headerOpcode (h : Word) : BitVec 8 := h.extractLsb' 0 8

/-- `arg`, header bits 15..8 (R80). -/
def headerArg (h : Word) : BitVec 8 := h.extractLsb' 8 8

/-- `len`, header bits 31..16: the number of operand words that follow (R80). -/
def headerLen (h : Word) : Nat := (h.extractLsb' 16 16).toNat

/-- The header with the given fields (R80). -/
def header (opcode arg : BitVec 8) (len : Nat) : Word :=
  BitVec.ofNat 32 (opcode.toNat + arg.toNat * 2 ^ 8 + len * 2 ^ 16)

/-- An F32 operand is one word (R81). -/
def F32.ofWord (w : Word) : F32 := ⟨w⟩
def F32.toWord (v : F32) : Word := v.bits

/-- An F64 operand is two words, the low one first; its pattern is the high word above the low one (R81). -/
def F64.ofWords (lo hi : Word) : F64 := ⟨BitVec.ofNat 64 (lo.toNat + hi.toNat * 2 ^ 32)⟩
def F64.lowWord (v : F64) : Word := v.bits.extractLsb' 0 32
def F64.highWord (v : F64) : Word := v.bits.extractLsb' 32 32

/-- The numbers of the opcodes (R85). -/
def Opcode.code : Opcode → BitVec 8
  | .init => 0x00#8
  | .setCutoff => 0x01#8
  | .setResonance => 0x02#8
  | .setEnvActive => 0x03#8
  | .setEnvDecay => 0x04#8
  | .setEnvSustain => 0x05#8
  | .trigAttack => 0x06#8
  | .trigRelease => 0x07#8
  | .advanceEnv => 0x08#8
  | .processBlock => 0x09#8

/-- The command with a given opcode; `0x0A` to `0xFF` are reserved and name none (R91, R202). -/
def Opcode.ofCode (b : BitVec 8) : Option Opcode :=
  match b.toNat with
  | 0 => some .init
  | 1 => some .setCutoff
  | 2 => some .setResonance
  | 3 => some .setEnvActive
  | 4 => some .setEnvDecay
  | 5 => some .setEnvSustain
  | 6 => some .trigAttack
  | 7 => some .trigRelease
  | 8 => some .advanceEnv
  | 9 => some .processBlock
  | _ => none

/-- The `len` of each row of R85; `n` is the block size `N`. -/
def Opcode.len (n : Nat) : Opcode → Nat
  | .init => 0
  | .setCutoff => 1
  | .setResonance => 1
  | .setEnvActive => 0
  | .setEnvDecay => 2
  | .setEnvSustain => 1
  | .trigAttack => 6
  | .trigRelease => 5
  | .advanceEnv => 2
  | .processBlock => n

/-- The bits of `arg` that may be 1: `arg[0]` of `SET_ENV_ACTIVE`, none elsewhere (R80). -/
def Opcode.argMask : Opcode → BitVec 8
  | .init => 0x00#8
  | .setCutoff => 0x00#8
  | .setResonance => 0x00#8
  | .setEnvActive => 0x01#8
  | .setEnvDecay => 0x00#8
  | .setEnvSustain => 0x00#8
  | .trigAttack => 0x00#8
  | .trigRelease => 0x00#8
  | .advanceEnv => 0x00#8
  | .processBlock => 0x00#8

/-- A word as four bytes, the least significant at the lowest address (R65). -/
def bytesOfWord (w : Word) : List Byte :=
  [w.extractLsb' 0 8, w.extractLsb' 8 8, w.extractLsb' 16 8, w.extractLsb' 24 8]

/-- The words of a byte sequence laid out as R65 says; bytes that do not fill a word give none. -/
def wordsOfBytes : List Byte → List Word
  | b0 :: b1 :: b2 :: b3 :: rest =>
    BitVec.ofNat 32 (b0.toNat + b1.toNat * 2 ^ 8 + b2.toNat * 2 ^ 16 + b3.toNat * 2 ^ 24) :: wordsOfBytes rest
  | _ => []

end Sys2Proof
end

