-- ==== Sys2Proof/Machine/FloatClass.lean ====
section
/-! DEFINITION. What an IEEE 754 bit pattern stands for: classes, values, sign operations and comparisons
(spec/00_scope.md R9). Nothing here rounds and nothing here makes a NaN. -/

namespace Sys2Proof

/-- An IEEE 754 binary interchange format. A finite datum is a whole number of units of `2^-unit`,
the least positive subnormal number. -/
structure Format where
  /-- The precision in bits, the hidden bit included. -/
  prec : Nat
  /-- The width of the exponent field. -/
  expBits : Nat
  /-- The least positive number is `2^-unit`. -/
  unit : Nat

def binary32 : Format := ⟨24, 8, 149⟩

def binary64 : Format := ⟨53, 11, 1074⟩

/-- The weight of the sign bit in the bit pattern read as a number. -/
def Format.signWeight (f : Format) : Nat := 2 ^ (f.prec - 1 + f.expBits)

/-- The bit pattern of `+Inf`; a greater pattern below the sign bit is a NaN. -/
def Format.infMag (f : Format) : Nat := (2 ^ f.expBits - 1) * 2 ^ (f.prec - 1)

/-- The value, in units, of the non-negative finite datum with bit pattern `m`. -/
def Format.units (f : Format) (m : Nat) : Nat :=
  let e := m / 2 ^ (f.prec - 1)
  let frac := m % 2 ^ (f.prec - 1)
  if e = 0 then frac else (2 ^ (f.prec - 1) + frac) * 2 ^ (e - 1)

/-- What a datum stands for. -/
inductive Val where
  | nan
  | inf (neg : Bool)
  /-- `(-1)^neg` times `units` units; `units = 0` is a signed zero. -/
  | fin (neg : Bool) (units : Nat)
  deriving DecidableEq, Repr

def Format.val (f : Format) (bits : Nat) : Val :=
  let neg := decide (f.signWeight ≤ bits)
  let m := bits % f.signWeight
  if f.infMag < m then .nan
  else if m = f.infMag then .inf neg
  else .fin neg (f.units m)

def F32.val (a : F32) : Val := binary32.val a.bits.toNat
def F64.val (a : F64) : Val := binary64.val a.bits.toNat

/-- The bit pattern without its sign. -/
def F32.mag (a : F32) : Nat := a.bits.toNat % 2 ^ 31
def F64.mag (a : F64) : Nat := a.bits.toNat % 2 ^ 63

def F32.neg? (a : F32) : Bool := decide (2 ^ 31 ≤ a.bits.toNat)
def F64.neg? (a : F64) : Bool := decide (2 ^ 63 ≤ a.bits.toNat)

def F32.isNaN (a : F32) : Bool := decide (0x7F800000 < a.mag)
def F64.isNaN (a : F64) : Bool := decide (0x7FF0000000000000 < a.mag)

def F32.isFinite (a : F32) : Bool := decide (a.mag < 0x7F800000)
def F64.isFinite (a : F64) : Bool := decide (a.mag < 0x7FF0000000000000)

def F32.isZero (a : F32) : Bool := decide (a.mag = 0)
def F64.isZero (a : F64) : Bool := decide (a.mag = 0)

/-- An infinity of either sign. -/
def F32.isInf (a : F32) : Bool := decide (a.mag = 0x7F800000)
def F64.isInf (a : F64) : Bool := decide (a.mag = 0x7FF0000000000000)

/-- The value of a finite datum as a whole number of units. -/
def F32.toUnits (a : F32) : Int :=
  if a.neg? then -(binary32.units a.mag : Int) else (binary32.units a.mag : Int)
def F64.toUnits (a : F64) : Int :=
  if a.neg? then -(binary64.units a.mag : Int) else (binary64.units a.mag : Int)

/-- The place of a datum that is no NaN in the numeric order; both zeros have place 0. -/
def F32.key (a : F32) : Int := if a.neg? then -(a.mag : Int) else (a.mag : Int)
def F64.key (a : F64) : Int := if a.neg? then -(a.mag : Int) else (a.mag : Int)

/-- `v < w`, false when an operand is a NaN (R9). -/
def F32.lt (a b : F32) : Bool := !a.isNaN && !b.isNaN && decide (a.key < b.key)
def F64.lt (a b : F64) : Bool := !a.isNaN && !b.isNaN && decide (a.key < b.key)

/-- `v <= w`, false when an operand is a NaN. -/
def F32.le (a b : F32) : Bool := !a.isNaN && !b.isNaN && decide (a.key ≤ b.key)
def F64.le (a b : F64) : Bool := !a.isNaN && !b.isNaN && decide (a.key ≤ b.key)

/-- `v > w` (R9). -/
def F64.gt (a b : F64) : Bool := b.lt a

/-- `v >= w` (R9). -/
def F64.ge (a b : F64) : Bool := b.le a

/-- `abs(v)` clears the sign bit (R9). -/
def F64.abs (a : F64) : F64 := ⟨BitVec.ofNat 64 a.mag⟩

/-- `-v` flips the sign bit (DEDUCED, log 8): adding its weight modulo `2^64` does that and no more. -/
def F64.neg (a : F64) : F64 := ⟨a.bits + 0x8000000000000000#64⟩

def F32.posZero : F32 := ⟨0x00000000#32⟩
def F64.posZero : F64 := ⟨0x0000000000000000#64⟩
def F64.negZero : F64 := ⟨0x8000000000000000#64⟩
def F64.posInf : F64 := ⟨0x7FF0000000000000#64⟩
def F64.negInf : F64 := ⟨0xFFF0000000000000#64⟩
def F64.one : F64 := ⟨0x3FF0000000000000#64⟩
def F64.two : F64 := ⟨0x4000000000000000#64⟩
def F64.four : F64 := ⟨0x4010000000000000#64⟩
def F32.two : F32 := ⟨0x40000000#32⟩

end Sys2Proof
end

