-- ==== Sys2Proof/Config.lean ====
section
/-! DEFINITION. What an implementation of the block fixes (spec/00_scope.md R7) and the free values
(spec/93_implementation_defined.md U1, U2, U4).

A free value is an opaque constant with no body: nothing can evaluate it, so a claim that is proved holds
whatever it is. The reference values of the numeric parameters are in Machine/Reference.lean. -/

namespace Sys2Proof

/-- The construction-time parameters `CFG` (R7). Every micro-operation and the machine of Machine/Instance.lean take this
record as an argument. The properties U1 guarantees of its two functions are `Cfg.Lawful`. -/
structure Cfg where
  /-- `N`, block size in samples. -/
  n : Nat
  /-- `N` is at least 1. -/
  n_pos : 1 ≤ n
  /-- `FS`, samples per second. -/
  fs : F64
  /-- `DC_COEFF`. -/
  dcCoeff : F32
  /-- `FC_MAX`, upper clamp of the normalised cutoff. -/
  fcMax : F64
  /-- `FCR3` to `FCR0`, the frequency-correction polynomial. -/
  fcr3 : F64
  fcr2 : F64
  fcr1 : F64
  fcr0 : F64
  /-- `ACR2` to `ACR0`, the resonance-correction polynomial. -/
  acr2 : F64
  acr1 : F64
  acr0 : F64
  /-- `THERMAL`. -/
  thermal : F64
  /-- `SMOOTH_CUT`. -/
  smoothCut : F32
  /-- `SMOOTH_RES`. -/
  smoothRes : F32
  /-- `SAT_ASYM_NEG`, `SAT_HB`, `SAT_EVEN`, `SAT_THIRD`, `SAT_IM`. -/
  satAsymNeg : F64
  satHb : F64
  satEven : F64
  satThird : F64
  satIm : F64
  /-- `CUTOFF_RESET`, Hz. -/
  cutoffReset : F32
  /-- `RES_RESET`. -/
  resReset : F32
  /-- `ENV_DECAY_RESET`, OPEN. -/
  envDecayReset : F64
  /-- `ENV_SUSTAIN_RESET`, OPEN. -/
  envSustainReset : F32
  /-- `TANH`. -/
  tanh : F64 → F64
  /-- `EXP`. -/
  exp : F64 → F64
  /-- `TWO_PI`. -/
  twoPi : F64

/-- What U1 guarantees of every `TANH`. The law of oddness is stated for arguments that are no NaN,
since the sign of a NaN result is open (U2). -/
structure TanhLaws (f : F64 → F64) : Prop where
  pos_zero : f .posZero = .posZero
  neg_zero : f .negZero = .negZero
  finite_bounds : ∀ x, x.isFinite = true →
    (f x).isFinite = true ∧ F64.le (F64.neg .one) (f x) = true ∧ F64.le (f x) .one = true
  odd : ∀ x, x.isNaN = false → f x.neg = (f x).neg
  monotone : ∀ x y, F64.le x y = true → F64.le (f x) (f y) = true
  pos_inf : f .posInf = .one
  neg_inf : f .negInf = F64.neg .one
  nan : ∀ x, x.isNaN = true → (f x).isNaN = true

/-- What U1 guarantees of every `EXP`. -/
structure ExpLaws (f : F64 → F64) : Prop where
  pos_zero : f .posZero = .one
  neg_zero : f .negZero = .one
  nonpos_bounds : ∀ x, F64.le x .posZero = true →
    F64.le .posZero (f x) = true ∧ F64.le (f x) .one = true
  monotone : ∀ x y, F64.le x y = true → F64.le (f x) (f y) = true
  neg_inf : f .negInf = .posZero
  pos_inf : f .posInf = .posInf
  nan : ∀ x, x.isNaN = true → (f x).isNaN = true

/-- The two functions of a parameter record are as U1 guarantees: what a proof about any instance may assume. -/
structure Cfg.Lawful (c : Cfg) : Prop where
  tanh : TanhLaws c.tanh
  exp : ExpLaws c.exp

/-- A pair of functions that meets U1. -/
structure MathFns where
  tanh : F64 → F64
  exp : F64 → F64
  tanhLaws : TanhLaws tanh
  expLaws : ExpLaws exp

/-- The free choice of `TANH` and `EXP` (U1): some pair that meets the laws, and nothing more is known of it.
Its argument only shows that such pairs exist. -/
opaque Config.mathFns [Inhabited MathFns] : MathFns

/-- `ENV_DECAY_RESET` (U4): free. -/
opaque Config.envDecayReset : F64

/-- `ENV_SUSTAIN_RESET` (U4): free. -/
opaque Config.envSustainReset : F32

/-- What `MemRead` gives for an index outside the block (spec/20_memory.md R61): free, and no rule reads it. -/
opaque Config.outsideBlock : Nat → F32

/-- The operations that can make a NaN. -/
inductive ArithOp where
  | add | sub | mul | div
  deriving DecidableEq, Repr

/-- The free sign and payload of the NaN that an operation makes from its operands (U2). -/
opaque Config.nanChoice32 : ArithOp → F32 → F32 → Bool × BitVec 23
opaque Config.nanChoice64 : ArithOp → F64 → F64 → Bool × BitVec 52
opaque Config.nanChoiceWiden : F32 → Bool × BitVec 52
opaque Config.nanChoiceNarrow : F64 → Bool × BitVec 23

end Sys2Proof
end

