-- ==== Sys2Proof/Machine/Float.lean ====
section
/-! DEFINITION. IEEE 754 arithmetic in binary32 and binary64 (spec/00_scope.md R9, spec/92_eei_decisions.md D6):
each operation computes its exact result and rounds it once, to nearest, ties to even, with gradual underflow.
There is no fused operation and there are no exception flags (spec/10_state.md R51).
The details IEEE 754 fixes and the spec only names (signs of zeros, invalid operations) are in log 14. -/

namespace Sys2Proof

/-- An exact result before rounding. -/
inductive Exact where
  /-- An invalid operation or a NaN operand: the result is a NaN. -/
  | invalid
  | inf (neg : Bool)
  /-- `(-1)^neg * num / den` units of the result's format, `den` positive. -/
  | ratio (neg : Bool) (num den : Nat)
  deriving DecidableEq, Repr

/-- The bit pattern, without sign, of the number nearest to `num / den` units; ties go to the even pattern,
and what rounds past the greatest finite number is infinity. -/
def Format.roundMag (f : Format) (num den : Nat) : Nat :=
  let shift := Nat.log2 (num / den) + 1 - f.prec
  let d := den * 2 ^ shift
  let n := num / d
  let r := num % d
  let up := d < 2 * r || (2 * r = d && n % 2 = 1)
  min (shift * 2 ^ (f.prec - 1) + (if up then n + 1 else n)) f.infMag

/-- The bit pattern of a rounded result; `none` is a NaN. -/
def Format.round (f : Format) : Exact → Option Nat
  | .invalid => none
  | .inf neg => some ((if neg then f.signWeight else 0) + f.infMag)
  | .ratio neg num den => some ((if neg then f.signWeight else 0) + f.roundMag num den)

def Val.negate : Val → Val
  | .nan => .nan
  | .inf s => .inf (!s)
  | .fin s m => .fin (!s) m

/-- The exact sum. Opposite equal magnitudes, and zeros of opposite sign, sum to `+0`. -/
def Val.add : Val → Val → Exact
  | .nan, _ => .invalid
  | _, .nan => .invalid
  | .inf s, .inf t => if s = t then .inf s else .invalid
  | .inf s, .fin _ _ => .inf s
  | .fin _ _, .inf t => .inf t
  | .fin s a, .fin t b =>
    if s = t then .ratio s (a + b) 1
    else if a = b then .ratio false 0 1
    else if b < a then .ratio s (a - b) 1
    else .ratio t (b - a) 1

/-- The exact product of two data of a format with unit `2^-unit`. -/
def Val.mul (unit : Nat) : Val → Val → Exact
  | .nan, _ => .invalid
  | _, .nan => .invalid
  | .inf s, .inf t => .inf (s != t)
  | .inf s, .fin t b => if b = 0 then .invalid else .inf (s != t)
  | .fin s a, .inf t => if a = 0 then .invalid else .inf (s != t)
  | .fin s a, .fin t b => .ratio (s != t) (a * b) (2 ^ unit)

/-- The exact quotient. -/
def Val.div (unit : Nat) : Val → Val → Exact
  | .nan, _ => .invalid
  | _, .nan => .invalid
  | .inf _, .inf _ => .invalid
  | .inf s, .fin t _ => .inf (s != t)
  | .fin s _, .inf t => .ratio (s != t) 0 1
  | .fin s a, .fin t b =>
    if b = 0 then (if a = 0 then .invalid else .inf (s != t))
    else .ratio (s != t) (a * 2 ^ unit) b

/-- The exact value in units `num / den` times as many. -/
def Val.scale (num den : Nat) : Val → Exact
  | .nan => .invalid
  | .inf s => .inf s
  | .fin s a => .ratio s (a * num) den

/-- The NaN with a given sign and payload; a zero payload would be an infinity and becomes 1. -/
def F32.ofNaN (c : Bool × BitVec 23) : F32 :=
  ⟨BitVec.ofNat 32 ((if c.1 then 2 ^ 31 else 0) + 0x7F800000 + max 1 c.2.toNat)⟩
def F64.ofNaN (c : Bool × BitVec 52) : F64 :=
  ⟨BitVec.ofNat 64 ((if c.1 then 2 ^ 63 else 0) + 0x7FF0000000000000 + max 1 c.2.toNat)⟩

/-- An operation's result: the rounded pattern, or a NaN of free sign and payload (U2). -/
def F32.finish (e : Exact) (c : Bool × BitVec 23) : F32 :=
  match binary32.round e with
  | some n => ⟨BitVec.ofNat 32 n⟩
  | none => F32.ofNaN c
def F64.finish (e : Exact) (c : Bool × BitVec 52) : F64 :=
  match binary64.round e with
  | some n => ⟨BitVec.ofNat 64 n⟩
  | none => F64.ofNaN c

/-- `[F32] a + b`. -/
def F32.add (a b : F32) : F32 := F32.finish (Val.add a.val b.val) (Config.nanChoice32 .add a b)
/-- `[F32] a - b`. -/
def F32.sub (a b : F32) : F32 := F32.finish (Val.add a.val b.val.negate) (Config.nanChoice32 .sub a b)
/-- `[F32] a * b`. -/
def F32.mul (a b : F32) : F32 := F32.finish (Val.mul binary32.unit a.val b.val) (Config.nanChoice32 .mul a b)

/-- `[F64] a + b`. -/
def F64.add (a b : F64) : F64 := F64.finish (Val.add a.val b.val) (Config.nanChoice64 .add a b)
/-- `[F64] a - b`. -/
def F64.sub (a b : F64) : F64 := F64.finish (Val.add a.val b.val.negate) (Config.nanChoice64 .sub a b)
/-- `[F64] a * b`. -/
def F64.mul (a b : F64) : F64 := F64.finish (Val.mul binary64.unit a.val b.val) (Config.nanChoice64 .mul a b)
/-- `[F64] a / b`. -/
def F64.div (a b : F64) : F64 := F64.finish (Val.div binary64.unit a.val b.val) (Config.nanChoice64 .div a b)

/-- A binary32 unit is `2^unitShift` binary64 units. -/
def unitShift : Nat := 925

/-- `f64(v)`: widens exactly (R9). -/
def F32.widen (a : F32) : F64 := F64.finish (Val.scale (2 ^ unitShift) 1 a.val) (Config.nanChoiceWiden a)

/-- `f32(v)`: rounds to nearest even, overflow gives an infinity (R9). -/
def F64.narrow (a : F64) : F32 := F32.finish (Val.scale 1 (2 ^ unitShift) a.val) (Config.nanChoiceNarrow a)

/-- The number nearest to the decimal fraction `(-1)^neg * num / den` (R7, D6). -/
def F32.nearest (neg : Bool) (num den : Nat) : F32 :=
  F32.finish (.ratio neg (num * 2 ^ binary32.unit) den) (false, 0#23)
def F64.nearest (neg : Bool) (num den : Nat) : F64 :=
  F64.finish (.ratio neg (num * 2 ^ binary64.unit) den) (false, 0#52)

end Sys2Proof
end

