-- ==== Sys2Proof/Machine/MathWitness.lean ====
section
/-! DEFINITION. A pair of functions that meets the laws of spec/93_implementation_defined.md U1, so that the free
choice `Config.mathFns` of Config.lean ranges over something. Nothing else of the model uses it. -/

namespace Sys2Proof

/-- With `Config.unitExp`, a pair of functions that meets U1: the sign function, and 1 on every finite argument.
The pair only shows that `Config.mathFns` ranges over something. -/
def Config.signTanh (x : F64) : F64 :=
  if x.isNaN || x.isZero then x else if x.neg? then F64.neg .one else .one

def Config.unitExp (x : F64) : F64 :=
  if x.isNaN then x else if x.isFinite then .one else if x.neg? then .posZero else .posInf

theorem F64.toNat_neg (x : F64) :
    x.neg.bits.toNat = (x.bits.toNat + 2 ^ 63) % 2 ^ 64 := by
  unfold F64.neg
  rw [BitVec.toNat_add, BitVec.toNat_ofNat]; rfl

theorem F64.mag_neg (x : F64) : x.neg.mag = x.mag := by
  have := x.bits.isLt
  simp only [F64.mag, F64.toNat_neg]; omega

theorem F64.neg?_neg (x : F64) : x.neg.neg? = !x.neg? := by
  have := x.bits.isLt
  simp only [F64.neg?, F64.toNat_neg]
  rw [← decide_not, decide_eq_decide]; omega

theorem F64.neg_neg (x : F64) : x.neg.neg = x := by
  have := x.bits.isLt
  cases x with
  | mk b => simp only [F64.neg, F64.mk.injEq]; bv_omega

theorem Config.signTanh_laws : TanhLaws Config.signTanh where
  pos_zero := by decide
  neg_zero := by decide
  finite_bounds := by
    intro x hx
    have hn : x.isNaN = false := by
      simp only [F64.isFinite, F64.isNaN, decide_eq_true_eq, decide_eq_false_iff_not] at *; omega
    unfold Config.signTanh
    by_cases hz : x.isZero = true
    · have hm : x.mag = 0 := by simpa [F64.isZero] using hz
      simp only [hz, hn, Bool.or_true, if_true]
      simp [F64.isFinite, F64.le, F64.key, hm, hn]
      decide
    · cases hs : x.neg? <;> simp [hz, hn] <;> decide
  odd := by
    intro x hn
    unfold Config.signTanh
    have h1 : x.neg.isNaN = false := by simpa [F64.isNaN, F64.mag_neg] using hn
    have h2 : x.neg.isZero = x.isZero := by simp [F64.isZero, F64.mag_neg]
    simp only [h1, h2, hn, F64.neg?_neg]
    cases x.isZero <;> cases x.neg? <;> simp [F64.neg_neg]
  monotone := by
    intro x y h
    simp only [F64.le, Bool.and_eq_true, Bool.not_eq_true', decide_eq_true_eq] at h
    obtain ⟨⟨hx, hy⟩, hk⟩ := h
    have key : ∀ z : F64, z.isNaN = false → (Config.signTanh z).isNaN = false ∧
        (Config.signTanh z).key = if z.mag = 0 then 0
          else if z.neg? then -(F64.one.mag : Int) else (F64.one.mag : Int) := by
      intro z hz
      unfold Config.signTanh
      by_cases h0 : z.mag = 0
      · simp [F64.isZero, h0, hz, F64.key]
      · cases hs : z.neg? <;> simp [F64.isZero, h0, hz] <;> decide
    simp only [F64.le, (key x hx).1, (key y hy).1, (key x hx).2, (key y hy).2]
    have ho : (F64.one.mag : Int) = 4607182418800017408 := by decide
    simp only [F64.key] at hk
    simp only [ho]
    cases hsx : x.neg? <;> cases hsy : y.neg? <;> simp only [hsx, hsy] at hk ⊢ <;> simp at hk ⊢ <;>
      split <;> split <;> omega
  pos_inf := by decide
  neg_inf := by decide
  nan := by intro x h; simp [Config.signTanh, h]

theorem Config.unitExp_laws : ExpLaws Config.unitExp where
  pos_zero := by decide
  neg_zero := by decide
  nonpos_bounds := by
    intro x h
    simp only [F64.le, Bool.and_eq_true, Bool.not_eq_true', decide_eq_true_eq] at h
    obtain ⟨⟨hx, -⟩, hk⟩ := h
    have h0 : F64.posZero.key = 0 := by decide
    rw [h0] at hk
    unfold Config.unitExp
    by_cases hf : x.isFinite = true
    · simp [hx, hf]; decide
    · cases hs : x.neg?
      · have : x.mag ≤ 0 := by simp [F64.key, hs] at hk; omega
        simp [F64.isFinite] at hf; omega
      · simp [hx, hf]; decide
  monotone := by
    intro x y h
    simp only [F64.le, Bool.and_eq_true, Bool.not_eq_true', decide_eq_true_eq] at h
    obtain ⟨⟨hx, hy⟩, hk⟩ := h
    unfold Config.unitExp
    simp only [hx, hy, Bool.false_eq_true, if_false]
    simp only [F64.key, F64.isNaN, F64.isFinite, decide_eq_false_iff_not] at *
    by_cases h1 : x.mag < 0x7FF0000000000000 <;> by_cases h2 : y.mag < 0x7FF0000000000000 <;>
      cases hsx : x.neg? <;> cases hsy : y.neg? <;> simp [hsx, hsy] at hk <;>
      simp only [h1, h2, decide_true, decide_false, if_true, if_false, Bool.false_eq_true] <;>
      first | decide | omega
  neg_inf := by decide
  pos_inf := by decide
  nan := by intro x h; simp [Config.unitExp, h]

def Config.someMathFns : MathFns :=
  ⟨Config.signTanh, Config.unitExp, Config.signTanh_laws, Config.unitExp_laws⟩

end Sys2Proof
end

