-- ==== Sys2Proof/Machine/Reference.lean ====
section
/-! DEFINITION. The deployed parameters: the reference values of spec/00_scope.md R7 with the free values of
Config.lean (log 7). A binary64 or binary32 pattern below is the number nearest to the decimal beside it. -/

namespace Sys2Proof

/-- The block's `TANH` and `EXP`: free, but for the laws of U1 (log 5). -/
def Config.math : MathFns := @Config.mathFns ⟨Config.someMathFns⟩

/-- The deployed `CFG` (R7). -/
def cfg : Cfg where
  n := 128
  n_pos := by decide
  fs := ⟨0x40E5888000000000#64⟩           -- 44100
  dcCoeff := ⟨0x3F7EB852#32⟩              -- 0.995
  fcMax := ⟨0x3FDCCCCCCCCCCCCD#64⟩        -- 0.45
  fcr3 := ⟨0x3FFDF7CED916872B#64⟩         -- 1.8730
  fcr2 := ⟨0x3FDFB645A1CAC083#64⟩         -- 0.4955
  fcr1 := ⟨0xBFE4C49BA5E353F8#64⟩         -- -0.6490
  fcr0 := ⟨0x3FEFF62B6AE7D567#64⟩         -- 0.9988
  acr2 := ⟨0xC00F7DBF487FCB92#64⟩         -- -3.9364
  acr1 := ⟨0x3FFD74538EF34D6A#64⟩         -- 1.8409
  acr0 := ⟨0x3FEFE5C91D14E3BD#64⟩         -- 0.9968
  thermal := ⟨0x3EFA36E2EB1C432D#64⟩      -- 0.000025
  smoothCut := ⟨0x3DCCCCCD#32⟩            -- 0.1
  smoothRes := ⟨0x3DCCCCCD#32⟩            -- 0.1
  satAsymNeg := ⟨0x3FEF5C28F5C28F5C#64⟩   -- 0.98
  satHb := ⟨0x3F8EB851EB851EB8#64⟩        -- 0.015
  satEven := ⟨0x3F80624DD2F1A9FC#64⟩      -- 0.008
  satThird := ⟨0x3F789374BC6A7EFA#64⟩     -- 0.006
  satIm := ⟨0x3F70624DD2F1A9FC#64⟩        -- 0.004
  cutoffReset := ⟨0x447A0000#32⟩          -- 1000
  resReset := ⟨0x3DCCCCCD#32⟩             -- 0.1
  envDecayReset := Config.envDecayReset
  envSustainReset := Config.envSustainReset
  tanh := Config.math.tanh
  exp := Config.math.exp
  twoPi := ⟨0x401921FB54442D18#64⟩

end Sys2Proof
end

