-- ==== Sys2Proof/WellFormed.lean ====
section
/-! DEFINITION. Which instructions are well formed: a `PROCESS_BLOCK` has exactly `N` samples
(spec/20_memory.md R70, spec/30_encoding.md R85). Every other operand is any bit pattern (R81). -/

namespace Sys2Proof

/-- Well-formedness at block size `n`. -/
def Instr.wellFormedAt (n : Nat) : Instr → Bool
  | .init => true
  | .setCutoff _ => true
  | .setResonance _ => true
  | .setEnvActive _ => true
  | .setEnvDecay _ => true
  | .setEnvSustain _ => true
  | .trigAttack _ _ _ _ => true
  | .trigRelease _ _ _ => true
  | .advanceEnv _ => true
  | .processBlock samples => decide (samples.length = n)

/-- Well-formedness at the deployed block size. -/
def Instr.wellFormed (i : Instr) : Bool := i.wellFormedAt cfg.n

end Sys2Proof
end

