-- ==== Sys2Proof/Decode.lean ====
section
/-! DEFINITION. The decoder of command packets, total on any words and rejecting by name
(spec/30_encoding.md R80 to R91), and the encoder written from the same tables. -/

namespace Sys2Proof

/-- What stands at the front of the command port. -/
inductive Packet where
  /-- A well-formed packet and the words after it. -/
  | command (i : Instr) (rest : List Word)
  /-- A complete packet that is not well formed, its kind (R90), and the words after it. -/
  | malformed (k : Precondition) (rest : List Word)
  /-- No header yet, or fewer operand words than the header announces: the packet is not consumed (R80, log 3). -/
  | incomplete
  deriving DecidableEq, Repr

/-- Operand word `k` of a packet, counted from 1; the header is word 0 (R86). It is asked only for words the packet has. -/
def operandWord (ws : List Word) (k : Nat) : Word := ws.getD (k - 1) 0#32

/-- The F32 operand in word `k`. -/
def operand32 (ws : List Word) (k : Nat) : F32 := F32.ofWord (operandWord ws k)

/-- The F64 operand in words `k` and `k + 1`. -/
def operand64 (ws : List Word) (k : Nat) : F64 := F64.ofWords (operandWord ws k) (operandWord ws (k + 1))

/-- The command of an opcode with the flag `arg[0]` and the operand words `ws`, as many as R85 says (R86). -/
def decodeOperands (flag : Bool) (op : Opcode) (ws : List Word) : Instr :=
  match op with
  | .init => .init
  | .setCutoff => .setCutoff (operand32 ws 1)
  | .setResonance => .setResonance (operand32 ws 1)
  | .setEnvActive => .setEnvActive flag
  | .setEnvDecay => .setEnvDecay (operand64 ws 1)
  | .setEnvSustain => .setEnvSustain (operand32 ws 1)
  | .trigAttack => .trigAttack (operand32 ws 1) (operand32 ws 2) (operand64 ws 3) (operand64 ws 5)
  | .trigRelease => .trigRelease (operand32 ws 1) (operand64 ws 2) (operand64 ws 4)
  | .advanceEnv => .advanceEnv (operand64 ws 1)
  | .processBlock => .processBlock (ws.map F32.ofWord)

/-- The checks of R90 in their order, on a header and the operand words it announces; `n` is the block size. -/
def decodeBody (n : Nat) (h : Word) (ws : List Word) : Except Precondition Instr :=
  match Opcode.ofCode (headerOpcode h) with
  | none => .error .illegalOpcode
  | some op =>
    if headerLen h ≠ op.len n then .error .badLength
    else if headerArg h &&& ~~~op.argMask ≠ 0#8 then .error .badField
    else .ok (decodeOperands ((headerArg h).getLsbD 0) op ws)

/-- The packet at the front of the port: `1 + len` words, whatever the opcode (R91). -/
def decodeAt (n : Nat) : List Word → Packet
  | [] => .incomplete
  | h :: words =>
    if words.length < headerLen h then .incomplete
    else
      match decodeBody n h (words.take (headerLen h)) with
      | .ok i => .command i (words.drop (headerLen h))
      | .error k => .malformed k (words.drop (headerLen h))

/-- The deployed decoder. -/
def decode (words : List Word) : Packet := decodeAt cfg.n words

/-- The header's `arg` field of a command. -/
def encodeArg : Instr → BitVec 8
  | .init => 0x00#8
  | .setCutoff _ => 0x00#8
  | .setResonance _ => 0x00#8
  | .setEnvActive flag => if flag then 0x01#8 else 0x00#8
  | .setEnvDecay _ => 0x00#8
  | .setEnvSustain _ => 0x00#8
  | .trigAttack _ _ _ _ => 0x00#8
  | .trigRelease _ _ _ => 0x00#8
  | .advanceEnv _ => 0x00#8
  | .processBlock _ => 0x00#8

/-- The operand words of a command (R81, R86). -/
def encodeOperands : Instr → List Word
  | .init => []
  | .setCutoff v => [v.toWord]
  | .setResonance v => [v.toWord]
  | .setEnvActive _ => []
  | .setEnvDecay s => [s.lowWord, s.highWord]
  | .setEnvSustain l => [l.toWord]
  | .trigAttack s p a n => [s.toWord, p.toWord, a.lowWord, a.highWord, n.lowWord, n.highWord]
  | .trigRelease t r n => [t.toWord, r.lowWord, r.highWord, n.lowWord, n.highWord]
  | .advanceEnv t => [t.lowWord, t.highWord]
  | .processBlock xs => xs.map F32.toWord

/-- The words of a command in port order (R80, R96). -/
def encode (i : Instr) : List Word :=
  header i.opcode.code (encodeArg i) (encodeOperands i).length :: encodeOperands i

/-- Word `k` of a number whose bit 0 is the least significant bit of word 0. -/
def wordOfNat (w k : Nat) : Word := BitVec.ofNat 32 (w >>> (32 * k))

/-- `count` words of a number from word `k` on. -/
def wordsOfNat (w : Nat) : Nat → Nat → List Word
  | 0, _ => []
  | count + 1, k => wordOfNat w k :: wordsOfNat w count (k + 1)

/-- The packet with bits `w`, numbered as spec/opcode_table.json numbers them: the first word is bits 31..0, and the
packet has as many words as that header announces; bits from `nbits` on are 0. -/
def packetOfNat (nbits w : Nat) : List Word :=
  let bits := w % 2 ^ nbits
  wordsOfNat bits (1 + headerLen (wordOfNat bits 0)) 0

/-- The instruction the decoder reads from a packet with bits `w`. -/
def decodeTableWord (nbits w : Nat) : Option Instr :=
  match decode (packetOfNat nbits w) with
  | .command i _ => some i
  | .malformed _ _ => none
  | .incomplete => none

end Sys2Proof
end

