-- ==== Sys2Proof/Machine/Registers.lean ====
section
/-! DEFINITION. The registers of one instance, grouped as spec/10_state.md R20 groups them.
Each group is a record of plain data; a register has its one home here. -/

namespace Sys2Proof.Machine

/-- FilterState (R21, R22, R23). -/
structure Filter where
  stage0 : F64
  stage1 : F64
  stage2 : F64
  stage3 : F64
  stageTanh0 : F64
  stageTanh1 : F64
  stageTanh2 : F64
  delay0 : F64
  delay1 : F64
  delay2 : F64
  delay3 : F64
  delay4 : F64
  delay5 : F64
  deriving DecidableEq, Repr

/-- DCBlockerState: `dcPrevIn` (R26), `dcPrevOut` (R27). -/
structure DcBlocker where
  prevIn : F32
  prevOut : F32
  deriving DecidableEq, Repr

/-- ControlParameters (R28 to R31). -/
structure Control where
  liveCutoff : F32
  liveRes : F32
  targetCutoff : F32
  targetRes : F32
  deriving DecidableEq, Repr

/-- DerivedCoefficients (R33 to R35). -/
structure Coeffs where
  tune : F64
  acr : F64
  resQuad : F64
  deriving DecidableEq, Repr

/-- The five legal values of `envPhase` (R36). -/
inductive Phase where
  | idle | attack | decay | held | release
  deriving DecidableEq, Repr

/-- EnvelopeState (R36 to R43, R46, R54). -/
structure Envelope where
  /-- `envPhase`. -/
  phase : Phase
  /-- `envActive`. -/
  active : Bool
  /-- `envStart`, Hz. -/
  start : F32
  /-- `envTarget`, Hz. -/
  target : F32
  /-- `envCur`, Hz. -/
  cur : F32
  /-- `envT0`, seconds on the host's clock. -/
  t0 : F64
  /-- `envDur`, seconds. -/
  dur : F64
  /-- `envDecay`, seconds. -/
  decay : F64
  /-- `envSustain`. -/
  sustain : F32
  /-- `manualCutoff`, Hz. -/
  manualCutoff : F32
  deriving DecidableEq, Repr

/-- The record `S` (R20). -/
structure Regs where
  filter : Filter
  dc : DcBlocker
  control : Control
  coeffs : Coeffs
  env : Envelope
  deriving DecidableEq, Repr

end Sys2Proof.Machine
end

