-- ==== Sys2Proof/Machine/Flags.lean ====
section
/-! DEFINITION. The status bits of the block (spec/10_state.md R36, R37, R51) and the status word of a response
(spec/30_encoding.md R84). No arithmetic operation sets a flag (R51). -/

namespace Sys2Proof.Machine

/-- The 3-bit code of `envPhase` (R36). -/
def Phase.bits : Phase → BitVec 3
  | .idle => 0b000#3
  | .attack => 0b001#3
  | .decay => 0b010#3
  | .held => 0b011#3
  | .release => 0b100#3

/-- `envPhase[1:0]`, the numeric tag of the source (R36). -/
def Phase.tag (p : Phase) : BitVec 2 := p.bits.extractLsb' 0 2

/-- `envPhase[2]`, the pending bit (R36). -/
def Phase.pending (p : Phase) : Bool := p.bits.getLsbD 2

/-- The phases in which `ENV_STEP` is not a no-op (R167). -/
def Phase.moves : Phase → Bool
  | .idle => false
  | .attack => true
  | .decay => true
  | .held => false
  | .release => true

/-- The code of an error kind (R201). -/
def kindCode : Precondition → BitVec 8
  | .illegalOpcode => 1#8
  | .badLength => 2#8
  | .badField => 3#8
  | .notInitialised => 4#8

/-- The status word `OK` (R84). -/
def statusOk : Word := 0x00000000#32

/-- The status word `ERR` with a kind (R84): bits 7..0 are `0x01`, bits 15..8 the kind, the rest 0. -/
def statusErr (k : Precondition) : Word := BitVec.ofNat 32 (0x01 + (kindCode k).toNat * 2 ^ 8)

end Sys2Proof.Machine
end

