-- ==== Sys2Proof/Machine/CoefficientMapper.lean ====
section
/-! DEFINITION. The micro-operation `COEF` (spec/42_coefficient_mapper.md). -/

namespace Sys2Proof.Machine

/-- Step 1: the cutoff normalised and clamped from above; a NaN passes (R121). -/
def coefFc (c : Cfg) (cutoff : F32) : F64 :=
  let fc0 := cutoff.widen.div c.fs
  if fc0.gt c.fcMax then c.fcMax else fc0

/-- `fcr`; the term `0.6490 * fc` is subtracted, and 0.6490 is `-FCR1` (R122). -/
def coefFcr (c : Cfg) (fc : F64) : F64 :=
  let fc2 := fc.mul fc
  let fc3 := fc2.mul fc
  (((c.fcr3.mul fc3).add (c.fcr2.mul fc2)).sub (c.fcr1.neg.mul fc)).add c.fcr0

/-- `acr` (R122). -/
def coefAcr (c : Cfg) (fc : F64) : F64 :=
  let fc2 := fc.mul fc
  ((c.acr2.mul fc2).add (c.acr1.mul fc)).add c.acr0

/-- `tune`, the integrator gain (R123). -/
def coefTune (c : Cfg) (fc fcr : F64) : F64 :=
  (F64.one.sub (c.exp ((c.twoPi.mul (fc.div .two)).mul fcr).neg)).div c.thermal

/-- `COEF(cutoff, resonance)` (R120 to R124). -/
def coef (c : Cfg) (cutoff resonance : F32) : Coeffs :=
  let fc := coefFc c cutoff
  let acr := coefAcr c fc
  { tune := coefTune c fc (coefFcr c fc)
    acr := acr
    resQuad := (F64.four.mul resonance.widen).mul acr }

/-- "Recompute coefficients": the arguments are always the live values (R120). -/
def Regs.recompute (c : Cfg) (r : Regs) : Regs :=
  { r with coeffs := coef c r.control.liveCutoff r.control.liveRes }

end Sys2Proof.Machine
end

