-- ==== Sys2Proof/Machine/ResetValues.lean ====
section
/-! DEFINITION. The value of every register after `INIT` (spec/10_state.md R52, spec/46_control_commands.md R190). -/

namespace Sys2Proof.Machine

def Filter.zero : Filter where
  stage0 := .posZero
  stage1 := .posZero
  stage2 := .posZero
  stage3 := .posZero
  stageTanh0 := .posZero
  stageTanh1 := .posZero
  stageTanh2 := .posZero
  delay0 := .posZero
  delay1 := .posZero
  delay2 := .posZero
  delay3 := .posZero
  delay4 := .posZero
  delay5 := .posZero

def DcBlocker.zero : DcBlocker where
  prevIn := .posZero
  prevOut := .posZero

/-- The registers after `INIT`; the coefficients are those of the reset live values. -/
def Regs.afterInit (c : Cfg) : Regs where
  filter := .zero
  dc := .zero
  control :=
    { liveCutoff := c.cutoffReset
      liveRes := c.resReset
      targetCutoff := c.cutoffReset
      targetRes := c.resReset }
  coeffs := coef c c.cutoffReset c.resReset
  env :=
    { phase := .idle
      active := false
      start := c.cutoffReset
      target := c.cutoffReset
      cur := c.cutoffReset
      t0 := .posZero
      dur := .posZero
      decay := c.envDecayReset
      sustain := c.envSustainReset
      manualCutoff := c.cutoffReset }

end Sys2Proof.Machine
end

