-- ==== Sys2Proof/Machine/State.lean ====
section
/-! DEFINITION. The machine's state: the block, `Uninit` or `Ready S` (spec/70_reset_and_hazards.md R222), and its two
ports. The record `S` is `Regs` of Machine/Registers.lean. -/

namespace Sys2Proof.Machine

/-- The block: before the first `INIT` it has no register values at all; after it, the registers for ever (R222). -/
inductive Block where
  | uninit
  | ready (r : Regs)
  deriving DecidableEq, Repr

/-- The whole state. The ports are inputs and outputs of a step in the spec (R20, R60); they stand here because a step
sees the state alone (log 2). -/
structure State where
  block : Block
  /-- The words on the command port that the block has not consumed, oldest first (spec/30_encoding.md R80). -/
  port : List Word
  /-- The response to the last completed command: a status word, then `OUT` after a `PROCESS_BLOCK` that ended `OK` (R84). -/
  response : List Word
  deriving DecidableEq, Repr

/-- The reasons the machine stops. There are none: no rule of the spec stops the block, a precondition violation
answers a status and goes on (spec/60_exceptions.md R200, R201), and arithmetic never raises (R208). See log 12. -/
inductive Fault where
  deriving DecidableEq, Repr

/-- The reasons an instruction has no meaning in the model. -/
inductive Refusal where
  /-- Raised by an arm of `exec` for an instruction that is not modelled yet; no arm raises it now. Safe. -/
  | notModelled (mnemonic : String)
  deriving DecidableEq, Repr

/-- Power-on: no `INIT` yet and no command answered (R53, R222, log 1). -/
def State.powerOn : State where
  block := .uninit
  port := []
  response := []

/-- Right after reset, which is the command `INIT` (R220), for the instance built with `c`: every register at its value of
R52, the answer to `INIT` given and nothing on the command port (log 1). -/
def State.resetAt (c : Cfg) : State where
  block := .ready (Regs.afterInit c)
  port := []
  response := [statusOk]

/-- The reset state of the deployed instance. -/
def State.reset : State := State.resetAt cfg

end Sys2Proof.Machine
end

