-- ==== Sys2Proof/Machine/Ops.lean ====
section
/-! DEFINITION. The operations every command's meaning is built from: answering `OK`, raising a precondition violation,
running a command on the registers of an initialised block, and consuming a packet. -/

namespace Sys2Proof.Machine

/-- The outcomes of a step of this machine. -/
abbrev Outcome := Host.Outcome State Fault Refusal

/-- The end of a command with status `OK`: the new registers, and the response with its sample words (R64, R84). -/
def State.answer (s : State) (r : Regs) (samples : List F32) : State :=
  { s with block := .ready r, response := statusOk :: samples.map (fun v => v.bits) }

/-- `raise Precondition(kind)` (spec/60_exceptions.md R201): status `ERR`, no register written, no sample returned. Nothing is
saved and control goes nowhere (R207). The packet's words have left the port before. -/
def State.raise (s : State) (k : Precondition) : State :=
  { s with response := [statusErr k] }

/-- A command other than `INIT` and `PROCESS_BLOCK`: `f` on the registers and status `OK`, or `NotInitialised` before the
first `INIT` (R205). -/
def State.command (s : State) (f : Regs → Regs) : Outcome :=
  match s.block with
  | .uninit => .next (s.raise .notInitialised)
  | .ready r => .next (s.answer (f r) [])

/-- What becomes of the packet at the front of the port, `run` being the meanings of the commands. It leaves the port before
the command runs (R80); a malformed one is consumed and discarded (R90); while no complete packet stands there the block is
idle and keeps its state (spec/60_exceptions.md R215, log 3). -/
def State.consume (s : State) (p : Packet) (run : Instr → State → Outcome) : Outcome :=
  match p with
  | .command i rest => run i { s with port := rest }
  | .malformed k rest => .next (State.raise { s with port := rest } k)
  | .incomplete => .next s

end Sys2Proof.Machine
end

