-- ==== Sys2Proof/Machine/ControlCommands.lean ====
section
/-! DEFINITION. The control commands `INIT`, `SET_CUTOFF`, `SET_RESONANCE` (spec/46_control_commands.md). -/

namespace Sys2Proof.Machine

/-- `SET_CUTOFF value` (R191): `manualCutoff` always, `targetCutoff` only while the envelope is inactive. -/
def setCutoff (c : Cfg) (value : F32) (r : Regs) : Regs :=
  Regs.recompute c
    { r with
      env := { r.env with manualCutoff := value }
      control := { r.control with
        targetCutoff := if r.env.active then r.control.targetCutoff else value } }

/-- `SET_RESONANCE value` (R192). -/
def setResonance (c : Cfg) (value : F32) (r : Regs) : Regs :=
  Regs.recompute c { r with control := { r.control with targetRes := value } }

/-- `INIT` (R190): it is accepted in every state and its result does not depend on the state before. -/
def execInitAt (c : Cfg) (s : State) : Outcome := .next (s.answer (Regs.afterInit c) [])

def execSetCutoffAt (c : Cfg) (value : F32) (s : State) : Outcome := s.command (setCutoff c value)

def execSetResonanceAt (c : Cfg) (value : F32) (s : State) : Outcome := s.command (setResonance c value)

/-! The meanings in the deployed instance. -/

def execInit (s : State) : Outcome := execInitAt cfg s

def execSetCutoff (value : F32) (s : State) : Outcome := execSetCutoffAt cfg value s

def execSetResonance (value : F32) (s : State) : Outcome := execSetResonanceAt cfg value s

end Sys2Proof.Machine
end

