-- ==== Sys2Proof/Machine/EnvelopeGenerator.lean ====
section
/-! DEFINITION. The envelope generator: its six commands and the micro-operation `ENV_STEP`
(spec/45_envelope_generator.md). -/

namespace Sys2Proof.Machine

/-- `TRIG_ATTACK` (R161): six writes; the peak is doubled in binary32. -/
def trigAttack (startCutoff peakCutoff : F32) (attackTime now : F64) (r : Regs) : Regs :=
  { r with
    env := { r.env with
      start := startCutoff
      target := F32.two.mul peakCutoff
      t0 := now
      dur := attackTime
      phase := .attack
      active := true } }

/-- `TRIG_RELEASE` (R162): five writes; the ramp starts from `envCur`. -/
def trigRelease (targetCutoff : F32) (releaseTime now : F64) (r : Regs) : Regs :=
  { r with
    env := { r.env with
      start := r.env.cur
      target := targetCutoff
      t0 := now
      dur := releaseTime
      phase := .release } }

/-- `SET_ENV_ACTIVE flag` (R163). -/
def setEnvActive (c : Cfg) (flag : Bool) (r : Regs) : Regs :=
  if flag then { r with env := { r.env with active := true } }
  else
    Regs.recompute c
      { r with
        env := { r.env with active := false, phase := .idle }
        control := { r.control with targetCutoff := r.env.manualCutoff } }

/-- `SET_ENV_DECAY seconds` (R164). -/
def setEnvDecay (seconds : F64) (r : Regs) : Regs :=
  { r with env := { r.env with decay := seconds } }

/-- `SET_ENV_SUSTAIN level` (R165): no clamp. -/
def setEnvSustain (level : F32) (r : Regs) : Regs :=
  { r with env := { r.env with sustain := level } }

/-- `p0` (R168). -/
def envRatio (e : Envelope) (currentTime : F64) : F64 := (currentTime.sub e.t0).div e.dur

/-- `done`: false when `p0` is a NaN (R168). -/
def envDone (e : Envelope) (currentTime : F64) : Bool := (envRatio e currentTime).ge .one

/-- `p`: clamped to 1 from above only (R168). -/
def envProgress (e : Envelope) (currentTime : F64) : F64 :=
  if envDone e currentTime then .one else envRatio e currentTime

/-- The point at progress `p` between two cutoffs: in binary64, rounded once to binary32 (R169). -/
def interpolate (start target : F32) (p : F64) : F32 :=
  (start.widen.add ((target.widen.sub start.widen).mul p)).narrow

/-- The target of the Decay that begins at `ns` (R170). -/
def decayTarget (e : Envelope) (ns : F32) : F32 :=
  interpolate ns e.manualCutoff (F64.one.sub e.sustain.widen)

/-- The transition at the end of a phase (R170, R171, R173): at most one, chosen by the phase on entry (R174). -/
def envComplete (e : Envelope) (currentTime : F64) : Envelope :=
  match e.phase with
  | .idle => e
  | .attack =>
    { e with
      start := e.target
      target := decayTarget e e.target
      t0 := currentTime
      dur := e.decay
      phase := .decay }
  | .decay => { e with phase := .held }
  | .held => e
  | .release => { e with phase := .idle }

/-- The envelope registers after a step that is not a no-op (R168 to R173). -/
def envRun (e : Envelope) (currentTime : F64) : Envelope :=
  let moved := { e with cur := interpolate e.start e.target (envProgress e currentTime) }
  if envDone e currentTime then envComplete moved currentTime else moved

/-- The propagation into the cutoff target, only while the envelope is the active source (R172). -/
def envPropagate (c : Cfg) (r : Regs) : Regs :=
  if r.env.active then
    Regs.recompute c { r with control := { r.control with targetCutoff := r.env.cur } }
  else r

/-- `ENV_STEP(currentTime)` (R167 to R174): a no-op in Idle and Held. -/
def envStep (c : Cfg) (currentTime : F64) (r : Regs) : Regs :=
  if r.env.phase.moves then envPropagate c { r with env := envRun r.env currentTime } else r

def execTrigAttack (startCutoff peakCutoff : F32) (attackTime now : F64) (s : State) : Outcome :=
  s.command (trigAttack startCutoff peakCutoff attackTime now)

def execTrigRelease (targetCutoff : F32) (releaseTime now : F64) (s : State) : Outcome :=
  s.command (trigRelease targetCutoff releaseTime now)

def execSetEnvActiveAt (c : Cfg) (flag : Bool) (s : State) : Outcome := s.command (setEnvActive c flag)

def execSetEnvActive (flag : Bool) (s : State) : Outcome := execSetEnvActiveAt cfg flag s

def execSetEnvDecay (seconds : F64) (s : State) : Outcome := s.command (setEnvDecay seconds)

def execSetEnvSustain (level : F32) (s : State) : Outcome := s.command (setEnvSustain level)

/-- `ADVANCE_ENV currentTime` (R166). -/
def execAdvanceEnvAt (c : Cfg) (currentTime : F64) (s : State) : Outcome := s.command (envStep c currentTime)

def execAdvanceEnv (currentTime : F64) (s : State) : Outcome := execAdvanceEnvAt cfg currentTime s

end Sys2Proof.Machine
end

