-- ==== Sys2Proof/Machine/DcBlocker.lean ====
section
/-! DEFINITION. The micro-operation `DCB` (spec/41_dc_blocker.md). -/

namespace Sys2Proof.Machine

/-- The output `y` of `DCB(x)` from the old register values (R111). -/
def dcbOut (c : Cfg) (d : DcBlocker) (x : F32) : F32 :=
  (x.sub d.prevIn).add (c.dcCoeff.mul d.prevOut)

/-- The two register writes of `DCB(x)` (R111). -/
def dcbNext (c : Cfg) (d : DcBlocker) (x : F32) : DcBlocker :=
  { prevIn := x, prevOut := dcbOut c d x }

end Sys2Proof.Machine
end

