-- ==== Sys2Proof/Machine/ParameterSmoother.lean ====
section
/-! DEFINITION. The micro-operation `SMOOTH` (spec/43_parameter_smoother.md). -/

namespace Sys2Proof.Machine

/-- `live + (target - live) * coefficient` in binary32 (R131). -/
def approach (live target coefficient : F32) : F32 :=
  live.add ((target.sub live).mul coefficient)

/-- `SMOOTH` (R131): each update uses the old value of its own live register. -/
def smooth (c : Cfg) (p : Control) : Control :=
  { p with
    liveCutoff := approach p.liveCutoff p.targetCutoff c.smoothCut
    liveRes := approach p.liveRes p.targetRes c.smoothRes }

end Sys2Proof.Machine
end

