-- ==== Sys2Proof/Machine/SaturationShaper.lean ====
section
/-! DEFINITION. The micro-operation `SAT` (spec/40_saturation_shaper.md). -/

namespace Sys2Proof.Machine

/-- `a / (1.0 + a)`, the measure of drive (R101). -/
def satLevel (a : F64) : F64 := a.div (F64.one.add a)

/-- `1.0 / (1.0 + 2.0 * level)` (R101). -/
def satFreqScale (level : F64) : F64 := F64.one.div (F64.one.add (F64.two.mul level))

/-- `asymmetry`: 1.0 for `x > 0.0`, else `SAT_ASYM_NEG`, also for both zeros and NaN (R102). -/
def satAsymmetry (c : Cfg) (x : F64) : F64 := if x.gt .posZero then .one else c.satAsymNeg

/-- `SAT(x)` (R101). -/
def sat (c : Cfg) (x : F64) : F64 :=
  let base := c.tanh x
  let asymmetry := satAsymmetry c x
  let a := x.abs
  let level := satLevel a
  let freqScale := satFreqScale level
  let harmonicBoost := F64.one.add ((c.satHb.mul level).mul freqScale)
  let even := (((c.satEven.mul x).mul level).mul freqScale).div (F64.one.add a)
  let third := ((c.satThird.mul x).mul (level.mul level)).mul freqScale
  let intermod := ((c.satIm.mul x).mul level).mul freqScale
  ((((asymmetry.mul base).mul harmonicBoost).add even).add third).add intermod

end Sys2Proof.Machine
end

