-- ==== Sys2Proof/Machine/LadderCore.lean ====
section
/-! DEFINITION. The micro-operation `SUBSTEP` and the block pipeline of `PROCESS_BLOCK`
(spec/44_ladder_core.md), with the sample buffers of spec/20_memory.md R60 to R63. -/

namespace Sys2Proof.Machine

/-- The feedback input and stage 0 (R141). -/
def stage0Step (c : Cfg) (k : Coeffs) (u : F64) (f : Filter) : Filter :=
  let feedbackInput := u.sub (k.resQuad.mul f.delay5)
  let newStage0 := f.delay0.add (k.tune.mul ((sat c (feedbackInput.mul c.thermal)).sub f.stageTanh0))
  { f with stage0 := newStage0, delay0 := newStage0 }

/-- Stage 1, from the stage 0 output of this sub-step (R142). -/
def stage1Step (c : Cfg) (k : Coeffs) (f : Filter) : Filter :=
  let t0 := sat c (f.stage0.mul c.thermal)
  let newStage1 := f.delay1.add (k.tune.mul (t0.sub f.stageTanh1))
  { f with stageTanh0 := t0, stage1 := newStage1, delay1 := newStage1 }

/-- Stage 2 (R143). -/
def stage2Step (c : Cfg) (k : Coeffs) (f : Filter) : Filter :=
  let t1 := sat c (f.stage1.mul c.thermal)
  let newStage2 := f.delay2.add (k.tune.mul (t1.sub f.stageTanh2))
  { f with stageTanh1 := t1, stage2 := newStage2, delay2 := newStage2 }

/-- Stage 3, which recomputes the saturation of its own old delay value (R144). -/
def stage3Step (c : Cfg) (k : Coeffs) (f : Filter) : Filter :=
  let t2 := sat c (f.stage2.mul c.thermal)
  let newStage3 := f.delay3.add (k.tune.mul (t2.sub (sat c (f.delay3.mul c.thermal))))
  { f with stageTanh2 := t2, stage3 := newStage3, delay3 := newStage3 }

/-- The half-sample delay, from the old `delay[4]` (R145). -/
def halfSampleStep (f : Filter) : Filter :=
  { f with delay5 := (f.stage3.add f.delay4).div .two, delay4 := f.stage3 }

/-- `SUBSTEP(u)`: the steps of R141 to R145 in that order (R140). -/
def substep (c : Cfg) (k : Coeffs) (u : F64) (f : Filter) : Filter :=
  halfSampleStep (stage3Step c k (stage2Step c k (stage1Step c k (stage0Step c k u f))))

/-- `OS` sub-steps with the same input; `OS` is fixed at 2 (R7, R140). -/
def oversampling : Nat := 2

def substeps (c : Cfg) (k : Coeffs) (u : F64) : Nat → Filter → Filter
  | 0, f => f
  | j + 1, f => substeps c k u j (substep c k u f)

/-- What one sample does to the registers: `DCB` once, then `OS` sub-steps (R148). -/
def sampleNext (c : Cfg) (r : Regs) (x : F32) : Regs :=
  { r with
    dc := dcbNext c r.dc x
    filter := substeps c r.coeffs (dcbOut c r.dc x).widen oversampling r.filter }

/-- The output sample: `delay[5]` after the last sub-step, rounded once (R148). -/
def sampleOut (c : Cfg) (r : Regs) (x : F32) : F32 := (sampleNext c r x).filter.delay5.narrow

/-- The sample loop over the input samples in ascending order; the output samples in the same order (R148).
The sample index of spec/10_state.md R50 is the recursion's. -/
def sampleLoop (c : Cfg) : Regs → List F32 → Regs × List F32
  | r, [] => (r, [])
  | r, x :: xs =>
    let rest := sampleLoop c (sampleNext c r x) xs
    (rest.1, sampleOut c r x :: rest.2)

/-- The block prologue: `SMOOTH`, then the coefficients of the new live values (R147). -/
def prologue (c : Cfg) (r : Regs) : Regs :=
  Regs.recompute c { r with control := smooth c r.control }

/-- `PROCESS_BLOCK` on `N` samples: the prologue, then the sample loop (R149). -/
def processSamples (c : Cfg) (r : Regs) (samples : List F32) : Regs × List F32 :=
  sampleLoop c (prologue c r) samples

/-- `MemRead(b, i)` (R61). For an index outside the block it is not defined and no rule calls it so: a free value (log 9). -/
def memRead (b : List F32) (i : Nat) : F32 := b.getD i (Config.outsideBlock i)

/-- `MemWrite(b, i, v)` (R62): every bit pattern is stored as it is. R62 defines it for an index inside the block only; that a
write outside it stores nothing is the model's choice, which no meaning reaches (DESIGN CHOICE, log 16). -/
def memWrite (b : List F32) (i : Nat) (v : F32) : List F32 := b.set i v

/-- The sample loop of R148 as the rule writes it, with separate buffers: `count` samples from index `i` on.
`sampleLoop` is the same loop over the samples themselves. -/
def separateLoop (c : Cfg) (input : List F32) : Nat → Nat → Regs → List F32 → Regs × List F32
  | 0, _, r, output => (r, output)
  | count + 1, i, r, output =>
    separateLoop c input count (i + 1) (sampleNext c r (memRead input i))
      (memWrite output i (sampleOut c r (memRead input i)))

/-- The same loop with `OUT` and `IN` the same buffer (R63, "in place"). -/
def inPlaceLoop (c : Cfg) : Nat → Nat → Regs → List F32 → Regs × List F32
  | 0, _, r, buffer => (r, buffer)
  | count + 1, i, r, buffer =>
    inPlaceLoop c count (i + 1) (sampleNext c r (memRead buffer i))
      (memWrite buffer i (sampleOut c r (memRead buffer i)))

end Sys2Proof.Machine
end

