-- ==== Sys2Proof/Machine/ProcessBlock.lean ====
section
/-! DEFINITION. The command `PROCESS_BLOCK` (spec/44_ladder_core.md R149). -/

namespace Sys2Proof.Machine

/-- `PROCESS_BLOCK`: a block of other than `N` samples is refused whole, before any state is touched and before the check
of initialisation (R149, R203, R206); otherwise the pipeline runs and the response carries the output block (R84). -/
def execProcessBlockAt (c : Cfg) (samples : List F32) (s : State) : Outcome :=
  if samples.length ≠ c.n then .next (s.raise .badLength)
  else
    match s.block with
    | .uninit => .next (s.raise .notInitialised)
    | .ready r => .next (s.answer (processSamples c r samples).1 (processSamples c r samples).2)

def execProcessBlock (samples : List F32) (s : State) : Outcome := execProcessBlockAt cfg samples s

end Sys2Proof.Machine
end

