-- ==== Sys2Proof/Machine/Dispatch.lean ====
section
/-! DEFINITION. One arm per command (spec/46_control_commands.md R195). -/

namespace Sys2Proof.Machine

def exec (i : Instr) (s : State) : Host.Outcome State Fault Refusal :=
  match i with
  | .init => Sys2Proof.Machine.execInit s
  | .setCutoff value => Sys2Proof.Machine.execSetCutoff value s
  | .setResonance value => Sys2Proof.Machine.execSetResonance value s
  | .setEnvActive flag => Sys2Proof.Machine.execSetEnvActive flag s
  | .setEnvDecay seconds => Sys2Proof.Machine.execSetEnvDecay seconds s
  | .setEnvSustain level => Sys2Proof.Machine.execSetEnvSustain level s
  | .trigAttack startCutoff peakCutoff attackTime now => Sys2Proof.Machine.execTrigAttack startCutoff peakCutoff attackTime now s
  | .trigRelease targetCutoff releaseTime now => Sys2Proof.Machine.execTrigRelease targetCutoff releaseTime now s
  | .advanceEnv currentTime => Sys2Proof.Machine.execAdvanceEnv currentTime s
  | .processBlock samples => Sys2Proof.Machine.execProcessBlock samples s

end Sys2Proof.Machine
end

