-- ==== Sys2Proof/Machine/Step.lean ====
section
/-! DEFINITION. One step: one whole packet consumed and its command run, refused with a status, or nothing to do
(spec/00_scope.md R3, spec/30_encoding.md R80, R90). -/

namespace Sys2Proof.Machine

/-- One step of the deployed instance: the packet at the front of the port is consumed. -/
def step (s : State) : Host.Outcome State Fault Refusal := s.consume (decode s.port) exec

/-- `s` with the packet of bits `w` placed before the words already on the port, so that it is the next one consumed. -/
def State.withFetchWord (s : State) (nbits w : Nat) : State :=
  { s with port := packetOfNat nbits w ++ s.port }

end Sys2Proof.Machine
end

