-- ==== Sys2Proof/Machine/Instance.lean ====
section
/-! DEFINITION. The machine built with any parameters `CFG` (spec/00_scope.md R7, spec/93_implementation_defined.md U10):
another block size, processing rate or constant is another argument. `exec`, `step` and `State.reset` are the instance at
the deployed `cfg`. -/

namespace Sys2Proof.Machine

/-- The meaning of each command in the instance built with `c`; four of them use no parameter. -/
def execAt (c : Cfg) (i : Instr) (s : State) : Outcome :=
  match i with
  | .init => execInitAt c s
  | .setCutoff value => execSetCutoffAt c value s
  | .setResonance value => execSetResonanceAt c value s
  | .setEnvActive flag => execSetEnvActiveAt c flag s
  | .setEnvDecay seconds => execSetEnvDecay seconds s
  | .setEnvSustain level => execSetEnvSustain level s
  | .trigAttack startCutoff peakCutoff attackTime now => execTrigAttack startCutoff peakCutoff attackTime now s
  | .trigRelease targetCutoff releaseTime now => execTrigRelease targetCutoff releaseTime now s
  | .advanceEnv currentTime => execAdvanceEnvAt c currentTime s
  | .processBlock samples => execProcessBlockAt c samples s

/-- One step of the instance built with `c`, whose decoder asks for blocks of `c.n` samples. -/
def stepAt (c : Cfg) (s : State) : Outcome := s.consume (decodeAt c.n s.port) (execAt c)

end Sys2Proof.Machine
end

