-- ==== Sys2Proof/Safety.lean ====
section
/-! DEFINITION. The relations between registers that every run from an `INIT` keeps, as the spec derives them. -/

namespace Sys2Proof.Machine

/-- `stage[k] = delay[k]`, and `delay[4] = stage[3]` (spec/10_state.md R24). -/
abbrev Filter.StageIsDelay (f : Filter) : Prop :=
  f.stage0 = f.delay0 ∧ f.stage1 = f.delay1 ∧ f.stage2 = f.delay2 ∧ f.stage3 = f.delay3 ∧
    f.delay4 = f.stage3

/-- `stageTanh[k]` is the saturation of `stage[k]` (R22). -/
abbrev Filter.CachesCurrent (c : Cfg) (f : Filter) : Prop :=
  f.stageTanh0 = sat c (f.stage0.mul c.thermal) ∧
    f.stageTanh1 = sat c (f.stage1.mul c.thermal) ∧
    f.stageTanh2 = sat c (f.stage2.mul c.thermal)

/-- The coefficients are those of the live values (R44). -/
abbrev Regs.CoeffsCurrent (c : Cfg) (r : Regs) : Prop :=
  r.coeffs = coef c r.control.liveCutoff r.control.liveRes

/-- An inactive envelope is in Idle or Release (R47). -/
abbrev Regs.InactiveIsIdleOrRelease (r : Regs) : Prop :=
  r.env.active = false → r.env.phase = .idle ∨ r.env.phase = .release

/-- While the envelope is inactive the cutoff target is the manual cutoff (spec/46_control_commands.md R194). -/
abbrev Regs.ManualOwnsTarget (r : Regs) : Prop :=
  r.env.active = false → r.control.targetCutoff = r.env.manualCutoff

/-- In Held the cutoff target is the envelope's cutoff (spec/45_envelope_generator.md R167). -/
abbrev Regs.HeldIsPropagated (r : Regs) : Prop :=
  r.env.phase = .held → r.control.targetCutoff = r.env.cur

/-- A relation between the registers holds of the block, once it is initialised. -/
abbrev State.Holds (s : State) (p : Regs → Prop) : Prop :=
  ∀ r, s.block = .ready r → p r

end Sys2Proof.Machine
end

