-- ==== Sys2Proof/Certificates/Slice0/Obligations.lean ====
section
/-! DEFINITION. The statements for the provers. Each docstring names the rule of the spec it formalises.
`cfg` is the deployed `CFG`, `stepAt c` the machine built with another; "the free value" of a statement is a constant of Config.lean with no body. -/

open Sys2Proof Sys2Proof.Machine

/-! ### Numbers -/

/-- R9 (round to nearest, ties to even; overflow gives an infinity): the rounded pattern is finite exactly when the exact
value lies below the midpoint past the greatest finite number, no finite number is nearer to the exact value, and of two
equally near ones it is the even pattern. -/
def Obligations.RoundingIsNearestEven : Prop :=
  ∀ f ∈ [binary32, binary64], ∀ num den : Nat, 0 < den →
    f.roundMag num den ≤ f.infMag ∧
      (f.roundMag num den < f.infMag ↔ 2 * num < (f.units (f.infMag - 1) + f.units f.infMag) * den) ∧
      (f.roundMag num den < f.infMag → ∀ m < f.infMag,
        ((num : Int) - f.units (f.roundMag num den) * den).natAbs ≤ ((num : Int) - f.units m * den).natAbs ∧
          (((num : Int) - f.units (f.roundMag num den) * den).natAbs = ((num : Int) - f.units m * den).natAbs →
            m ≠ f.roundMag num den → f.roundMag num den % 2 = 0))

/-- R9: sums, differences and products of finite numbers, and quotients by a finite number that is no zero, are the exact
results rounded once; the result is never a NaN. `toUnits` is the exact value in units of the least positive number. That the
sign of a product or quotient is the xor of the signs, a zero result included, is IEEE 754's rule (log 14). -/
def Obligations.ArithmeticRoundsTheExactResult : Prop :=
  (∀ a b : F32, a.isFinite = true → b.isFinite = true →
    (∃ m s, (a.add b).mag = m ∧ (a.add b).neg? = s ∧ m = binary32.roundMag (a.toUnits + b.toUnits).natAbs 1 ∧
        (m ≠ 0 → (s = true ↔ a.toUnits + b.toUnits < 0))) ∧
      (∃ m s, (a.sub b).mag = m ∧ (a.sub b).neg? = s ∧ m = binary32.roundMag (a.toUnits - b.toUnits).natAbs 1 ∧
        (m ≠ 0 → (s = true ↔ a.toUnits - b.toUnits < 0))) ∧
      (a.mul b).mag = binary32.roundMag (a.toUnits * b.toUnits).natAbs (2 ^ binary32.unit) ∧
      (a.mul b).neg? = (a.neg? != b.neg?)) ∧
  (∀ a b : F64, a.isFinite = true → b.isFinite = true →
    (∃ m s, (a.add b).mag = m ∧ (a.add b).neg? = s ∧ m = binary64.roundMag (a.toUnits + b.toUnits).natAbs 1 ∧
        (m ≠ 0 → (s = true ↔ a.toUnits + b.toUnits < 0))) ∧
      (∃ m s, (a.sub b).mag = m ∧ (a.sub b).neg? = s ∧ m = binary64.roundMag (a.toUnits - b.toUnits).natAbs 1 ∧
        (m ≠ 0 → (s = true ↔ a.toUnits - b.toUnits < 0))) ∧
      (a.mul b).mag = binary64.roundMag (a.toUnits * b.toUnits).natAbs (2 ^ binary64.unit) ∧
      (a.mul b).neg? = (a.neg? != b.neg?) ∧
      (b.isZero = false →
        (a.div b).mag = binary64.roundMag (a.toUnits.natAbs * 2 ^ binary64.unit) b.toUnits.natAbs ∧
          (a.div b).neg? = (a.neg? != b.neg?)))

/-- R208 and R9 (the details of IEEE 754 are log 14): division by zero, infinities of both signs and NaN operands give the
default result, in both formats, and execution goes on. Comparisons order the data that are no NaN by value, with the
infinities at the ends and the two zeros equal, and are false when an operand is a NaN. -/
def Obligations.SpecialOperandsGiveDefaultResults : Prop :=
  (∀ a b : F32,
    (a.isNaN = true ∨ b.isNaN = true →
      (a.add b).isNaN = true ∧ (a.sub b).isNaN = true ∧ (a.mul b).isNaN = true ∧ a.lt b = false ∧ a.le b = false) ∧
    (a.isInf = true → b.isInf = true →
      (a.neg? = b.neg? → a.add b = a ∧ (a.sub b).isNaN = true) ∧
      (a.neg? ≠ b.neg? → (a.add b).isNaN = true ∧ a.sub b = a) ∧
      (a.mul b).isInf = true ∧ (a.mul b).neg? = (a.neg? != b.neg?)) ∧
    (a.isInf = true → b.isFinite = true →
      a.add b = a ∧ b.add a = a ∧ a.sub b = a ∧ (b.sub a).isInf = true ∧ (b.sub a).neg? = (!a.neg?) ∧
      (b.isZero = true → (a.mul b).isNaN = true ∧ (b.mul a).isNaN = true) ∧
      (b.isZero = false → (a.mul b).isInf = true ∧ (a.mul b).neg? = (a.neg? != b.neg?) ∧
        (b.mul a).isInf = true ∧ (b.mul a).neg? = (a.neg? != b.neg?))) ∧
    (a.isFinite = true → b.isFinite = true →
      (a.lt b = true ↔ a.toUnits < b.toUnits) ∧ (a.le b = true ↔ a.toUnits ≤ b.toUnits)) ∧
    (a.isInf = true → b.isNaN = false →
      (a.neg? = true → a.le b = true ∧ b.lt a = false ∧ (a.lt b = true ↔ b ≠ a) ∧ (b.le a = true ↔ b = a)) ∧
      (a.neg? = false → b.le a = true ∧ a.lt b = false ∧ (b.lt a = true ↔ b ≠ a) ∧ (a.le b = true ↔ b = a)))) ∧
  (∀ a b : F64,
    a.gt b = b.lt a ∧ a.ge b = b.le a ∧
    (a.isNaN = true ∨ b.isNaN = true →
      (a.add b).isNaN = true ∧ (a.sub b).isNaN = true ∧ (a.mul b).isNaN = true ∧ (a.div b).isNaN = true ∧
        a.lt b = false ∧ a.le b = false) ∧
    (a.isInf = true → b.isInf = true →
      (a.neg? = b.neg? → a.add b = a ∧ (a.sub b).isNaN = true) ∧
      (a.neg? ≠ b.neg? → (a.add b).isNaN = true ∧ a.sub b = a) ∧
      (a.mul b).isInf = true ∧ (a.mul b).neg? = (a.neg? != b.neg?) ∧ (a.div b).isNaN = true) ∧
    (a.isInf = true → b.isFinite = true →
      a.add b = a ∧ b.add a = a ∧ a.sub b = a ∧ (b.sub a).isInf = true ∧ (b.sub a).neg? = (!a.neg?) ∧
      (b.isZero = true → (a.mul b).isNaN = true ∧ (b.mul a).isNaN = true) ∧
      (b.isZero = false → (a.mul b).isInf = true ∧ (a.mul b).neg? = (a.neg? != b.neg?) ∧
        (b.mul a).isInf = true ∧ (b.mul a).neg? = (a.neg? != b.neg?)) ∧
      (a.div b).isInf = true ∧ (a.div b).neg? = (a.neg? != b.neg?) ∧
      (b.div a).isZero = true ∧ (b.div a).neg? = (a.neg? != b.neg?)) ∧
    (a.isFinite = true → b.isZero = true →
      (a.isZero = true → (a.div b).isNaN = true) ∧
      (a.isZero = false → (a.div b).isInf = true ∧ (a.div b).neg? = (a.neg? != b.neg?))) ∧
    (a.isFinite = true → b.isFinite = true →
      (a.lt b = true ↔ a.toUnits < b.toUnits) ∧ (a.le b = true ↔ a.toUnits ≤ b.toUnits)) ∧
    (a.isInf = true → b.isNaN = false →
      (a.neg? = true → a.le b = true ∧ b.lt a = false ∧ (a.lt b = true ↔ b ≠ a) ∧ (b.le a = true ↔ b = a)) ∧
      (a.neg? = false → b.le a = true ∧ a.lt b = false ∧ (b.lt a = true ↔ b ≠ a) ∧ (a.le b = true ↔ b = a))))

/-- R9: `f64(v)` widens exactly, and `f32` takes a widened value back; `f32` of a finite value is that value rounded once to
nearest even, with overflow to an infinity, under its own sign (kept by a zero result: log 14); a NaN gives a NaN both ways.
A binary32 unit is `2^unitShift` binary64 units. -/
def Obligations.WideningIsExact : Prop :=
  unitShift = binary64.unit - binary32.unit ∧
  (∀ v : F32,
    (v.isFinite = true → v.widen.isFinite = true ∧ v.widen.neg? = v.neg? ∧
      v.widen.toUnits = v.toUnits * 2 ^ (binary64.unit - binary32.unit)) ∧
    (v.isNaN = false → v.widen.narrow = v) ∧
    (v.isNaN = true → v.widen.isNaN = true)) ∧
  ∀ v : F64,
    (v.isFinite = true →
      v.narrow.mag = binary32.roundMag v.toUnits.natAbs (2 ^ unitShift) ∧ v.narrow.neg? = v.neg?) ∧
    (v.isInf = true → v.narrow.isInf = true ∧ v.narrow.neg? = v.neg?) ∧
    (v.isNaN = true → v.narrow.isNaN = true)

/-- R7: each reference constant is the number of its type nearest to the decimal value, and the deployed machine is the
machine that takes `CFG` as an argument, at these values (log 7): its decoder, commands, step and reset. -/
def Obligations.ReferenceConstantsAreNearest : Prop :=
  cfg.n = 128 ∧ oversampling = 2 ∧
  cfg.fs = F64.nearest false 44100 1 ∧ cfg.dcCoeff = F32.nearest false 995 1000 ∧ cfg.fcMax = F64.nearest false 45 100 ∧
  cfg.fcr3 = F64.nearest false 18730 10000 ∧ cfg.fcr2 = F64.nearest false 4955 10000 ∧
  cfg.fcr1 = F64.nearest true 6490 10000 ∧ cfg.fcr0 = F64.nearest false 9988 10000 ∧
  cfg.acr2 = F64.nearest true 39364 10000 ∧ cfg.acr1 = F64.nearest false 18409 10000 ∧
  cfg.acr0 = F64.nearest false 9968 10000 ∧ cfg.thermal = F64.nearest false 25 1000000 ∧
  cfg.smoothCut = F32.nearest false 1 10 ∧ cfg.smoothRes = F32.nearest false 1 10 ∧
  cfg.satAsymNeg = F64.nearest false 98 100 ∧ cfg.satHb = F64.nearest false 15 1000 ∧
  cfg.satEven = F64.nearest false 8 1000 ∧ cfg.satThird = F64.nearest false 6 1000 ∧ cfg.satIm = F64.nearest false 4 1000 ∧
  cfg.cutoffReset = F32.nearest false 1000 1 ∧ cfg.resReset = F32.nearest false 1 10 ∧
  cfg.twoPi = ⟨0x401921FB54442D18#64⟩ ∧
  (∀ i : Instr, i.wellFormed = i.wellFormedAt cfg.n) ∧ (∀ words : List Word, decode words = decodeAt cfg.n words) ∧
  (∀ (i : Instr) (s : State), exec i s = execAt cfg i s) ∧ (∀ s : State, step s = stepAt cfg s) ∧
  State.reset = State.resetAt cfg

/-! ### Packets -/

/-- R96: the worked encodings, both ways, with the operands as the decimals the table prints. -/
def Obligations.WorkedEncodingsDecode : Prop :=
  ∀ row ∈ ([
      (.init, [0x00000000#32]),
      (.setCutoff (F32.nearest false 1000 1), [0x00010001#32, 0x447A0000#32]),
      (.setResonance (F32.nearest false 1 10), [0x00010002#32, 0x3DCCCCCD#32]),
      (.setEnvActive true, [0x00000103#32]),
      (.setEnvActive false, [0x00000003#32]),
      (.setEnvDecay (F64.nearest false 5 10), [0x00020004#32, 0x00000000#32, 0x3FE00000#32]),
      (.setEnvSustain (F32.nearest false 5 10), [0x00010005#32, 0x3F000000#32]),
      (.trigAttack (F32.nearest false 200 1) (F32.nearest false 2000 1) (F64.nearest false 1 10) (F64.nearest false 0 1),
        [0x00060006#32, 0x43480000#32, 0x44FA0000#32, 0x9999999A#32, 0x3FB99999#32, 0x00000000#32, 0x00000000#32]),
      (.trigRelease (F32.nearest false 500 1) (F64.nearest false 25 100) (F64.nearest false 1 1),
        [0x00050007#32, 0x43FA0000#32, 0x00000000#32, 0x3FD00000#32, 0x00000000#32, 0x3FF00000#32]),
      (.advanceEnv (F64.nearest false 5 100), [0x00020008#32, 0x9999999A#32, 0x3FA99999#32]),
      (.processBlock (List.replicate 128 (F32.nearest false 0 1)), 0x00800009#32 :: List.replicate 128 0x00000000#32)
    ] : List (Instr × List Word)),
    encode row.1 = row.2 ∧ decode row.2 = .command row.1 []

/-- R80, R81, R85, R86: every well-formed instruction, with every operand value, is read back from its words, and the words
after the packet are left alone: by the deployed decoder, and at every block size the `len` field can hold. -/
def Obligations.DecodeOfEncode : Prop :=
  (∀ (i : Instr) (rest : List Word), i.wellFormed = true → decode (encode i ++ rest) = .command i rest) ∧
    ∀ (n : Nat) (i : Instr) (rest : List Word), n < 2 ^ 16 → i.wellFormedAt n = true →
      decodeAt n (encode i ++ rest) = .command i rest

/-- R85, R90, R91: a packet decodes to a command only if it is that command's encoding, so each packet has one meaning: in the
deployed decoder, and at every block size. -/
def Obligations.EncodeOfDecode : Prop :=
  (∀ (words rest : List Word) (i : Instr), decode words = .command i rest →
    i.wellFormed = true ∧ words = encode i ++ rest) ∧
    ∀ (n : Nat) (words rest : List Word) (i : Instr), decodeAt n words = .command i rest →
      i.wellFormedAt n = true ∧ words = encode i ++ rest

/-- R65: a host that lays the words out in little-endian bytes and reads them back has the same words. -/
def Obligations.LittleEndianBytesRoundTrip : Prop :=
  (∀ words : List Word, wordsOfBytes (words.flatMap bytesOfWord) = words) ∧
    bytesOfWord 0x3FB99999#32 = [0x99#8, 0x99#8, 0xB9#8, 0x3F#8]

/-- A step runs the decoded instruction: when the words on the port decode to an instruction, it is well formed, and the
step is `exec` of it on the state whose port has lost exactly the header and the `len` words it announces. The same of the
machine built with any `CFG` (R7). -/
def Obligations.StepRunsTheDecodedInstruction : Prop :=
  (∀ (s : State) (i : Instr) (rest : List Word), decode s.port = .command i rest →
    i.wellFormed = true ∧ step s = exec i { s with port := rest } ∧
      ∃ h words, s.port = h :: words ∧ rest = words.drop (headerLen h)) ∧
    ∀ (c : Cfg) (s : State) (i : Instr) (rest : List Word), decodeAt c.n s.port = .command i rest →
      i.wellFormedAt c.n = true ∧ stepAt c s = execAt c i { s with port := rest } ∧
        ∃ h words, s.port = h :: words ∧ rest = words.drop (headerLen h)

/-- R90 and R201 to R206: what becomes of a complete packet, from its header and the initialisation alone, the first kind in
order being reported. A refused packet is consumed whole and changes nothing but the response; a packet that is not refused
ends with status OK in an initialised block. -/
def Obligations.RefusalsInOrder : Prop :=
  ∀ (s : State) (h : Word) (words : List Word), s.port = h :: words → headerLen h ≤ words.length →
    if 10 ≤ (headerOpcode h).toNat then
      step s = .next { s with port := words.drop (headerLen h), response := [0x00000101#32] }
    else if headerLen h ≠ [0, 1, 1, 0, 2, 1, 6, 5, 2, 128].getD (headerOpcode h).toNat 0 then
      step s = .next { s with port := words.drop (headerLen h), response := [0x00000201#32] }
    else if (if headerOpcode h = 3#8 then headerArg h &&& 0xFE#8 else headerArg h) ≠ 0#8 then
      step s = .next { s with port := words.drop (headerLen h), response := [0x00000301#32] }
    else if s.block = .uninit ∧ headerOpcode h ≠ 0#8 then
      step s = .next { s with port := words.drop (headerLen h), response := [0x00000401#32] }
    else
      ∃ r samples, step s = .next
        { block := .ready r, port := words.drop (headerLen h), response := 0x00000000#32 :: samples }

/-- R80, R215: while the port holds no complete packet the block keeps its state (log 3). -/
def Obligations.IncompletePacketWaits : Prop :=
  ∀ s : State, (s.port = [] ∨ ∃ h words, s.port = h :: words ∧ words.length < headerLen h) → step s = .next s

/-- R84: the status word's fields for each kind, and the form of every response: one status word, and after it `N` sample
words exactly for a `PROCESS_BLOCK` with status OK. -/
def Obligations.ResponseForm : Prop :=
  (∀ k : Precondition, (statusErr k).extractLsb' 0 8 = 0x01#8 ∧ (statusErr k).extractLsb' 16 16 = 0#16 ∧
      (statusErr k).extractLsb' 8 8 = match k with
        | .illegalOpcode => 1#8
        | .badLength => 2#8
        | .badField => 3#8
        | .notInitialised => 4#8) ∧
    ∀ (s t : State), decode s.port ≠ .incomplete → step s = .next t →
      (∃ k, t.response = [statusErr k] ∧ t.block = s.block) ∨
        (∃ i rest samples, decode s.port = .command i rest ∧ t.response = 0x00000000#32 :: samples ∧
          samples.length = if i.opcode = .processBlock then 128 else 0)

/-- R230, R208: the block is total: in every state, whatever stands on the port, a step answers a next state. That nothing
stops the block is the model's reading (log 12), and the next state while the packet is incomplete its choice (log 3). -/
def Obligations.StepAlwaysGoesOn : Prop :=
  ∀ s : State, ∃ t, step s = .next t

/-- R222, R205: from `Uninit` the only move is `INIT`, and a block that is `Ready` stays so. -/
def Obligations.OnlyInitLeavesUninit : Prop :=
  ∀ s t : State, step s = .next t →
    (s.block = .uninit → t.block = .uninit ∨ ∃ rest, decode s.port = .command .init rest) ∧
      ((∃ r, s.block = .ready r) → ∃ r, t.block = .ready r)

/-! ### The control commands -/

/-- R190, R52: `INIT`, in every state, initialised or not, writes every register with its value of the table. The coefficients
are `COEF` of the reset live values; `envDecay` and `envSustain` are the OPEN parameters. -/
def Obligations.InitWritesTheResetTable : Prop :=
  ∀ s : State, exec .init s = .next
    { s with
      block := .ready
        { filter :=
            { stage0 := ⟨0#64⟩, stage1 := ⟨0#64⟩, stage2 := ⟨0#64⟩, stage3 := ⟨0#64⟩
              stageTanh0 := ⟨0#64⟩, stageTanh1 := ⟨0#64⟩, stageTanh2 := ⟨0#64⟩
              delay0 := ⟨0#64⟩, delay1 := ⟨0#64⟩, delay2 := ⟨0#64⟩, delay3 := ⟨0#64⟩, delay4 := ⟨0#64⟩, delay5 := ⟨0#64⟩ }
          dc := { prevIn := ⟨0#32⟩, prevOut := ⟨0#32⟩ }
          control :=
            { liveCutoff := ⟨0x447A0000#32⟩, liveRes := ⟨0x3DCCCCCD#32⟩
              targetCutoff := ⟨0x447A0000#32⟩, targetRes := ⟨0x3DCCCCCD#32⟩ }
          coeffs := coef cfg ⟨0x447A0000#32⟩ ⟨0x3DCCCCCD#32⟩
          env :=
            { phase := .idle, active := false
              start := ⟨0x447A0000#32⟩, target := ⟨0x447A0000#32⟩, cur := ⟨0x447A0000#32⟩
              t0 := ⟨0#64⟩, dur := ⟨0#64⟩
              decay := cfg.envDecayReset, sustain := cfg.envSustainReset
              manualCutoff := ⟨0x447A0000#32⟩ } }
      response := [0x00000000#32] }

/-- R220, R222 (and log 1): the reset state is what `INIT` leaves of the state at power-on, which has no register values, in
the deployed machine and in the machine built with any `CFG` (R7). -/
def Obligations.ResetIsInitFromPowerOn : Prop :=
  State.powerOn.block = .uninit ∧ exec .init State.powerOn = .next State.reset ∧
    (∀ s : State, ∃ t, exec .init s = .next t ∧ t.block = State.reset.block ∧ t.response = State.reset.response ∧
      t.port = s.port) ∧
    ∀ c : Cfg, execAt c .init State.powerOn = .next (State.resetAt c)

/-- R191: `SET_CUTOFF` in an initialised block, every other register as it was. -/
def Obligations.SetCutoffResult : Prop :=
  ∀ (s : State) (r : Regs) (value : F32), s.block = .ready r →
    exec (.setCutoff value) s = .next
      { s with
        block := .ready
          { r with
            env := { r.env with manualCutoff := value }
            control := { r.control with targetCutoff := if r.env.active then r.control.targetCutoff else value }
            coeffs := coef cfg r.control.liveCutoff r.control.liveRes }
        response := [0x00000000#32] }

/-- R192: `SET_RESONANCE`, every other register as it was. -/
def Obligations.SetResonanceResult : Prop :=
  ∀ (s : State) (r : Regs) (value : F32), s.block = .ready r →
    exec (.setResonance value) s = .next
      { s with
        block := .ready
          { r with
            control := { r.control with targetRes := value }
            coeffs := coef cfg r.control.liveCutoff r.control.liveRes }
        response := [0x00000000#32] }

/-! ### The envelope -/

/-- R36: the codes of the phases, their source tags and the pending bit. -/
def Obligations.PhaseCodes : Prop :=
  Phase.idle.bits = 0b000#3 ∧ Phase.attack.bits = 0b001#3 ∧ Phase.decay.bits = 0b010#3 ∧ Phase.held.bits = 0b011#3 ∧
    Phase.release.bits = 0b100#3 ∧
    ∀ p : Phase, (p.pending = true ↔ p = .release) ∧
      (p.tag = match p with
        | .idle => 0#2
        | .attack => 1#2
        | .decay => 2#2
        | .held => 3#2
        | .release => 0#2)

/-- R163: `SET_ENV_ACTIVE`, both values of the flag, every other register as it was. -/
def Obligations.SetEnvActiveResult : Prop :=
  ∀ (s : State) (r : Regs) (flag : Bool), s.block = .ready r →
    exec (.setEnvActive flag) s = .next
      { s with
        block := .ready
          (if flag = false then
            { r with
              env := { r.env with active := false, phase := .idle }
              control := { r.control with targetCutoff := r.env.manualCutoff }
              coeffs := coef cfg r.control.liveCutoff r.control.liveRes }
          else { r with env := { r.env with active := true } })
        response := [0x00000000#32] }

/-- R164 and R165: `SET_ENV_DECAY` and `SET_ENV_SUSTAIN` store their operand, whatever it is, and write nothing else. -/
def Obligations.SetDecayAndSustainResult : Prop :=
  ∀ (s : State) (r : Regs) (seconds : F64) (level : F32), s.block = .ready r →
    exec (.setEnvDecay seconds) s = .next
        { s with block := .ready { r with env := { r.env with decay := seconds } }, response := [0x00000000#32] } ∧
      exec (.setEnvSustain level) s = .next
        { s with block := .ready { r with env := { r.env with sustain := level } }, response := [0x00000000#32] }

/-- R161: the six writes of `TRIG_ATTACK` and no other. -/
def Obligations.TrigAttackResult : Prop :=
  ∀ (s : State) (r : Regs) (startCutoff peakCutoff : F32) (attackTime now : F64), s.block = .ready r →
    exec (.trigAttack startCutoff peakCutoff attackTime now) s = .next
      { s with
        block := .ready
          { r with
            env := { r.env with
              start := startCutoff
              target := F32.mul ⟨0x40000000#32⟩ peakCutoff
              t0 := now
              dur := attackTime
              phase := .attack
              active := true } }
        response := [0x00000000#32] }

/-- R161: the doubling of the peak is exact in binary32 unless it overflows, and then it is an infinity of the peak's sign. -/
def Obligations.PeakDoublingIsExactUnlessItOverflows : Prop :=
  ∀ (s : State) (r : Regs) (startCutoff peakCutoff : F32) (attackTime now : F64), s.block = .ready r →
    peakCutoff.isFinite = true →
    ∃ t r', exec (.trigAttack startCutoff peakCutoff attackTime now) s = .next t ∧ t.block = .ready r' ∧
      r'.env.target.neg? = peakCutoff.neg? ∧
      ((r'.env.target.isFinite = true ∧ r'.env.target.toUnits = 2 * peakCutoff.toUnits) ∨
        (r'.env.target.mag = 0x7F800000 ∧ 0x7F000000 ≤ peakCutoff.mag))

/-- R162: the five writes of `TRIG_RELEASE` and no other; the ramp starts from `envCur`. -/
def Obligations.TrigReleaseResult : Prop :=
  ∀ (s : State) (r : Regs) (targetCutoff : F32) (releaseTime now : F64), s.block = .ready r →
    exec (.trigRelease targetCutoff releaseTime now) s = .next
      { s with
        block := .ready
          { r with
            env := { r.env with
              start := r.env.cur
              target := targetCutoff
              t0 := now
              dur := releaseTime
              phase := .release } }
        response := [0x00000000#32] }

/-- R167: `ADVANCE_ENV` in Idle or Held writes no register. -/
def Obligations.AdvanceIsANoOpInIdleAndHeld : Prop :=
  ∀ (s : State) (r : Regs) (currentTime : F64), s.block = .ready r →
    r.env.phase = .idle ∨ r.env.phase = .held →
    exec (.advanceEnv currentTime) s = .next { s with response := [0x00000000#32] }

/-- R168, R169, R172, R174: `ADVANCE_ENV` in Attack, Decay or Release while the progress is not at least 1, which includes a
progress that is a NaN: `envCur` moves to the point of the ramp, and the cutoff target with it while the envelope is active. -/
def Obligations.AdvanceInsideAPhase : Prop :=
  ∀ (s : State) (r : Regs) (currentTime : F64), s.block = .ready r →
    r.env.phase = .attack ∨ r.env.phase = .decay ∨ r.env.phase = .release →
    ∀ (p : F64) (cur : F32), p = (currentTime.sub r.env.t0).div r.env.dur → F64.ge p ⟨0x3FF0000000000000#64⟩ = false →
      cur = (r.env.start.widen.add ((r.env.target.widen.sub r.env.start.widen).mul p)).narrow →
      exec (.advanceEnv currentTime) s = .next
        { s with
          block := .ready
            (if r.env.active then
              { r with
                env := { r.env with cur := cur }
                control := { r.control with targetCutoff := cur }
                coeffs := coef cfg r.control.liveCutoff r.control.liveRes }
            else { r with env := { r.env with cur := cur } })
          response := [0x00000000#32] }

/-- R169 to R174: `ADVANCE_ENV` at the end of a phase: the final sample of the phase with progress 1, then exactly one
transition: Attack to Decay with the new ramp, Decay to Held, Release to Idle; then the propagation while active. -/
def Obligations.AdvanceCompletesAPhase : Prop :=
  ∀ (s : State) (r : Regs) (currentTime : F64), s.block = .ready r →
    r.env.phase = .attack ∨ r.env.phase = .decay ∨ r.env.phase = .release →
    F64.ge ((currentTime.sub r.env.t0).div r.env.dur) ⟨0x3FF0000000000000#64⟩ = true →
    ∀ (cur : F32) (env : Envelope),
      cur = (r.env.start.widen.add
        ((r.env.target.widen.sub r.env.start.widen).mul ⟨0x3FF0000000000000#64⟩)).narrow →
      env = (match r.env.phase with
        | .attack =>
          { r.env with
            cur := cur
            start := r.env.target
            target := (r.env.target.widen.add ((r.env.manualCutoff.widen.sub r.env.target.widen).mul
              (F64.sub ⟨0x3FF0000000000000#64⟩ r.env.sustain.widen))).narrow
            t0 := currentTime
            dur := r.env.decay
            phase := .decay }
        | .decay => { r.env with cur := cur, phase := .held }
        | .release => { r.env with cur := cur, phase := .idle }
        | .idle => r.env
        | .held => r.env) →
      exec (.advanceEnv currentTime) s = .next
        { s with
          block := .ready
            (if r.env.active then
              { r with
                env := env
                control := { r.control with targetCutoff := cur }
                coeffs := coef cfg r.control.liveCutoff r.control.liveRes }
            else { r with env := env })
          response := [0x00000000#32] }

/-- R169: the final sample of a phase is the phase's target, as a number, when the binary64 difference of the two ends is
exact. -/
def Obligations.FinalSampleIsTheTarget : Prop :=
  ∀ (s : State) (r : Regs) (currentTime : F64), s.block = .ready r →
    r.env.phase = .attack ∨ r.env.phase = .decay ∨ r.env.phase = .release →
    F64.ge ((currentTime.sub r.env.t0).div r.env.dur) ⟨0x3FF0000000000000#64⟩ = true →
    r.env.start.isFinite = true → r.env.target.isFinite = true →
    (r.env.target.widen.sub r.env.start.widen).toUnits = r.env.target.widen.toUnits - r.env.start.widen.toUnits →
    ∃ t r', exec (.advanceEnv currentTime) s = .next t ∧ t.block = .ready r' ∧
      r'.env.cur.isFinite = true ∧ r'.env.cur.toUnits = r.env.target.toUnits

/-- R179 with the premise that the times do not lie before the phase's start (log 13): within a phase the envelope cutoff
rises with time when the ramp rises, and falls when it falls. -/
def Obligations.EnvelopeIsMonotoneInTime : Prop :=
  ∀ (s : State) (r : Regs) (t1 t2 : F64), s.block = .ready r →
    r.env.phase = .attack ∨ r.env.phase = .decay ∨ r.env.phase = .release →
    r.env.start.isFinite = true → r.env.target.isFinite = true → r.env.t0.isFinite = true → r.env.dur.isFinite = true →
    F64.lt .posZero r.env.dur = true → t1.isFinite = true → t2.isFinite = true →
    F64.le r.env.t0 t1 = true → F64.le t1 t2 = true →
    ∃ u1 u2 r1 r2, exec (.advanceEnv t1) s = .next u1 ∧ exec (.advanceEnv t2) s = .next u2 ∧
      u1.block = .ready r1 ∧ u2.block = .ready r2 ∧
      (F32.le r.env.start r.env.target = true → F32.le r1.env.cur r2.env.cur = true) ∧
      (F32.le r.env.target r.env.start = true → F32.le r2.env.cur r1.env.cur = true)

/-- R177, second row, and R234: a duration of `+0.0` met at the phase's own start time poisons the envelope cutoff, and the
cutoff target while the envelope is active, with a NaN; the phase does not end. -/
def Obligations.ZeroDurationAtItsStartIsANaN : Prop :=
  ∀ (s : State) (r : Regs), s.block = .ready r →
    r.env.phase = .attack ∨ r.env.phase = .decay ∨ r.env.phase = .release →
    r.env.t0.isFinite = true → r.env.dur = ⟨0#64⟩ →
    ∃ t r', exec (.advanceEnv r.env.t0) s = .next t ∧ t.block = .ready r' ∧ r'.env.phase = r.env.phase ∧
      r'.env.cur.isNaN = true ∧ (r.env.active = true → r'.control.targetCutoff.isNaN = true)

/-- R177, first row: a duration of `+0.0` met after the phase's start time completes the phase at once. -/
def Obligations.ZeroDurationAfterItsStartCompletes : Prop :=
  ∀ (s : State) (r : Regs) (currentTime : F64), s.block = .ready r →
    r.env.phase = .attack ∨ r.env.phase = .decay ∨ r.env.phase = .release →
    r.env.t0.isFinite = true → currentTime.isFinite = true → F64.lt r.env.t0 currentTime = true → r.env.dur = ⟨0#64⟩ →
    ∃ t r', exec (.advanceEnv currentTime) s = .next t ∧ t.block = .ready r' ∧
      r'.env.cur = (r.env.start.widen.add
        ((r.env.target.widen.sub r.env.start.widen).mul ⟨0x3FF0000000000000#64⟩)).narrow ∧
      (r.env.phase = .attack → r'.env.phase = .decay) ∧ (r.env.phase = .decay → r'.env.phase = .held) ∧
      (r.env.phase = .release → r'.env.phase = .idle)

/-- R176: every transition of the phase, by every command, in every phase. -/
def Obligations.PhaseTransitionTable : Prop :=
  ∀ (i : Instr) (s t : State) (r : Regs), s.block = .ready r → i.wellFormed = true → exec i s = .next t →
    ∃ r', t.block = .ready r' ∧ r'.env.phase =
      match i with
      | .init => .idle
      | .trigAttack _ _ _ _ => .attack
      | .trigRelease _ _ _ => .release
      | .setEnvActive flag => if flag then r.env.phase else .idle
      | .setEnvDecay _ => r.env.phase
      | .setEnvSustain _ => r.env.phase
      | .setCutoff _ => r.env.phase
      | .setResonance _ => r.env.phase
      | .processBlock _ => r.env.phase
      | .advanceEnv currentTime =>
        if F64.ge ((currentTime.sub r.env.t0).div r.env.dur) .one then
          match r.env.phase with
          | .idle => .idle
          | .attack => .decay
          | .decay => .held
          | .held => .held
          | .release => .idle
        else r.env.phase

/-! ### The block pipeline -/

/-- R101, R102: `SAT` line by line, and the branch of its asymmetry. -/
def Obligations.SatFormula : Prop :=
  ∀ (x base asymmetry a level freqScale harmonicBoost even third intermod : F64),
    base = cfg.tanh x → asymmetry = (if x.gt ⟨0#64⟩ then ⟨0x3FF0000000000000#64⟩ else cfg.satAsymNeg) → a = x.abs →
    level = a.div (F64.one.add a) → freqScale = F64.one.div (F64.one.add (F64.two.mul level)) →
    harmonicBoost = F64.one.add ((cfg.satHb.mul level).mul freqScale) →
    even = (((cfg.satEven.mul x).mul level).mul freqScale).div (F64.one.add a) →
    third = ((cfg.satThird.mul x).mul (level.mul level)).mul freqScale →
    intermod = ((cfg.satIm.mul x).mul level).mul freqScale →
    sat cfg x = ((((asymmetry.mul base).mul harmonicBoost).add even).add third).add intermod

/-- R103, which the spec derives from R101: `SAT(+0.0) = +0.0`, and `SAT(-0.0)` is a zero. -/
def Obligations.SatOfZeroIsZero : Prop :=
  sat cfg .posZero = .posZero ∧ (sat cfg .negZero).isZero = true

/-- R104, which the spec derives from R101: `SAT` of a finite argument is finite; of an infinity or a NaN it is a NaN. -/
def Obligations.SatIsFiniteOnFiniteArguments : Prop :=
  ∀ x : F64, (x.isFinite = true → (sat cfg x).isFinite = true) ∧ (x.isFinite = false → (sat cfg x).isNaN = true)

/-- R105: `SAT` is not bounded by the bounds of `TANH`: the value at the greatest finite number exceeds `10^305`. -/
def Obligations.SatIsNotBounded : Prop :=
  F64.lt (F64.nearest false (10 ^ 305) 1) (sat cfg ⟨0x7FEFFFFFFFFFFFFF#64⟩) = true

/-- R111: `DCB`: the output from the old register values, then the two writes. -/
def Obligations.DcBlockerFormula : Prop :=
  ∀ (d : DcBlocker) (x y : F32), y = (x.sub d.prevIn).add (F32.mul ⟨0x3F7EB852#32⟩ d.prevOut) →
    dcbOut cfg d x = y ∧ dcbNext cfg d x = { prevIn := x, prevOut := y }

/-- R113: once an input sample, or a register of the DC blocker, is not finite, that output and every later one is not finite,
whatever the later samples are; silence in gives silence out. -/
def Obligations.DcBlockerKeepsNonFinite : Prop :=
  (∀ (d : Nat → DcBlocker) (x : Nat → F32), (∀ n, d (n + 1) = dcbNext cfg (d n) (x n)) →
    (x 0).isFinite = false ∨ (d 0).prevIn.isFinite = false ∨ (d 0).prevOut.isFinite = false →
      ∀ n, (dcbOut cfg (d n) (x n)).isFinite = false) ∧
    dcbOut cfg { prevIn := .posZero, prevOut := .posZero } .posZero = .posZero ∧
    dcbNext cfg { prevIn := .posZero, prevOut := .posZero } .posZero = { prevIn := .posZero, prevOut := .posZero }

/-- R121 to R124: `COEF` step by step. -/
def Obligations.CoefFormula : Prop :=
  ∀ (cutoff resonance : F32) (fc0 fc fc2 fc3 fcr acr : F64),
    fc0 = cutoff.widen.div cfg.fs → fc = (if fc0.gt cfg.fcMax then cfg.fcMax else fc0) → fc2 = fc.mul fc → fc3 = fc2.mul fc →
    fcr = (((cfg.fcr3.mul fc3).add (cfg.fcr2.mul fc2)).sub ((F64.nearest false 6490 10000).mul fc)).add cfg.fcr0 →
    acr = ((cfg.acr2.mul fc2).add (cfg.acr1.mul fc)).add cfg.acr0 →
    coef cfg cutoff resonance =
      { tune := (F64.one.sub (cfg.exp ((cfg.twoPi.mul (fc.div .two)).mul fcr).neg)).div cfg.thermal
        acr := acr
        resQuad := (F64.four.mul resonance.widen).mul acr }

/-- R121 (the clamp invariant of the source's section 8): the normalised cutoff never exceeds `FC_MAX`; all cutoffs at or
above 19846 Hz have the same `tune` and `acr`; a NaN passes the clamp. -/
def Obligations.CutoffClampHolds : Prop :=
  (∀ cutoff : F32, cutoff.isNaN = false → F64.le (coefFc cfg cutoff) cfg.fcMax = true) ∧
    (∀ cutoff resonance : F32, F32.le (F32.nearest false 19846 1) cutoff = true →
      (coef cfg cutoff resonance).tune = (coef cfg (F32.nearest false 19846 1) resonance).tune ∧
        (coef cfg cutoff resonance).acr = (coef cfg (F32.nearest false 19846 1) resonance).acr) ∧
    (∀ cutoff : F32, cutoff.isNaN = true → (coefFc cfg cutoff).isNaN = true)

/-- R126: a cutoff that is a zero of either sign gives `tune` zero, and R232: a NaN cutoff gives NaN coefficients. -/
def Obligations.CoefOfZeroAndOfNaN : Prop :=
  (∀ cutoff resonance : F32, cutoff.isZero = true → (coef cfg cutoff resonance).tune = .posZero) ∧
    (∀ cutoff resonance : F32, cutoff.isNaN = true →
      (coef cfg cutoff resonance).tune.isNaN = true ∧ (coef cfg cutoff resonance).acr.isNaN = true ∧
        (coef cfg cutoff resonance).resQuad.isNaN = true)

/-- R126 (without its decimals, which depend on the `EXP` instance) and R231: for a cutoff that is zero or positive, infinity
included, `tune` is finite, not negative and at most 40000, the reciprocal of `THERMAL`. -/
def Obligations.TuneIsBoundedForNonNegativeCutoffs : Prop :=
  ∀ cutoff resonance : F32, F32.le .posZero cutoff = true →
    (coef cfg cutoff resonance).tune.isFinite = true ∧ F64.le .posZero (coef cfg cutoff resonance).tune = true ∧
      F64.le (coef cfg cutoff resonance).tune (F64.nearest false 40000 1) = true

/-- R134 with the premise that the difference of target and live value does not overflow (log 13): the live value never
overshoots the target and never moves away from it. The two smoothing coefficients are those of the deployed block. -/
def Obligations.SmoothingNeverOvershoots : Prop :=
  ∀ live target coefficient : F32, coefficient = cfg.smoothCut ∨ coefficient = cfg.smoothRes →
    live.isFinite = true → target.isFinite = true → (target.sub live).isFinite = true →
    (F32.le live target = true →
      F32.le live (approach live target coefficient) = true ∧ F32.le (approach live target coefficient) target = true) ∧
    (F32.le target live = true →
      F32.le target (approach live target coefficient) = true ∧ F32.le (approach live target coefficient) live = true)

/-- R232: a NaN in a live value, or in its target, makes the live value a NaN at the next `SMOOTH`, and at every later one
whatever the targets are then. -/
def Obligations.SmoothingKeepsNaN : Prop :=
  ∀ p : Nat → Control,
    (∀ n, (p (n + 1)).liveCutoff = (smooth cfg (p n)).liveCutoff ∧ (p (n + 1)).liveRes = (smooth cfg (p n)).liveRes) →
    ((p 0).liveCutoff.isNaN = true ∨ (p 0).targetCutoff.isNaN = true → ∀ n, (p (n + 1)).liveCutoff.isNaN = true) ∧
      ((p 0).liveRes.isNaN = true ∨ (p 0).targetRes.isNaN = true → ∀ n, (p (n + 1)).liveRes.isNaN = true)

/-- R140 to R145: the registers after a sub-step, from those before it. -/
def Obligations.SubstepFormula : Prop :=
  ∀ (k : Coeffs) (u : F64) (f : Filter) (x n0 t0 n1 t1 n2 t2 n3 : F64),
    x = u.sub (k.resQuad.mul f.delay5) →
    n0 = f.delay0.add (k.tune.mul ((sat cfg (x.mul cfg.thermal)).sub f.stageTanh0)) →
    t0 = sat cfg (n0.mul cfg.thermal) → n1 = f.delay1.add (k.tune.mul (t0.sub f.stageTanh1)) →
    t1 = sat cfg (n1.mul cfg.thermal) → n2 = f.delay2.add (k.tune.mul (t1.sub f.stageTanh2)) →
    t2 = sat cfg (n2.mul cfg.thermal) →
    n3 = f.delay3.add (k.tune.mul (t2.sub (sat cfg (f.delay3.mul cfg.thermal)))) →
    substep cfg k u f =
      { stage0 := n0, stage1 := n1, stage2 := n2, stage3 := n3
        stageTanh0 := t0, stageTanh1 := t1, stageTanh2 := t2
        delay0 := n0, delay1 := n1, delay2 := n2, delay3 := n3, delay4 := n3
        delay5 := (n3.add f.delay4).div .two }

/-- R147, R148, R149: `PROCESS_BLOCK` of `N` samples in an initialised block completes: there is a sequence of register values,
from the prologue's on, each sample taking one to the next by one `DCB` and two sub-steps with the same input; the output
samples are `delay[5]` rounded once, in order; only the envelope and the targets are never touched. -/
def Obligations.ProcessBlockResult : Prop :=
  ∀ (s : State) (r : Regs) (samples : List F32), s.block = .ready r → samples.length = 128 →
    ∃ (regs : Nat → Regs) (out : List F32),
      regs 0 =
        { r with
          control := { r.control with
            liveCutoff := r.control.liveCutoff.add
              ((r.control.targetCutoff.sub r.control.liveCutoff).mul ⟨0x3DCCCCCD#32⟩)
            liveRes := r.control.liveRes.add ((r.control.targetRes.sub r.control.liveRes).mul ⟨0x3DCCCCCD#32⟩) }
          coeffs := coef cfg
            (r.control.liveCutoff.add ((r.control.targetCutoff.sub r.control.liveCutoff).mul ⟨0x3DCCCCCD#32⟩))
            (r.control.liveRes.add ((r.control.targetRes.sub r.control.liveRes).mul ⟨0x3DCCCCCD#32⟩)) } ∧
      out.length = 128 ∧
      (∀ n x, samples[n]? = some x → ∃ y u,
        y = (x.sub (regs n).dc.prevIn).add (F32.mul ⟨0x3F7EB852#32⟩ (regs n).dc.prevOut) ∧ u = y.widen ∧
        regs (n + 1) =
          { regs n with
            dc := { prevIn := x, prevOut := y }
            filter := substep cfg (regs n).coeffs u (substep cfg (regs n).coeffs u (regs n).filter) } ∧
        out[n]? = some (regs (n + 1)).filter.delay5.narrow) ∧
      exec (.processBlock samples) s = .next
        { s with block := .ready (regs 128), response := 0x00000000#32 :: out.map (fun v => v.bits) }

/-- R203, R206 (and log 15): a `PROCESS_BLOCK` of another length than `N` is refused whole with `BadLength`, in an initialised
block or not, in the deployed machine and in the machine built with any `CFG` (R7). -/
def Obligations.WrongBlockLengthIsRefused : Prop :=
  (∀ (s : State) (samples : List F32), samples.length ≠ 128 →
    exec (.processBlock samples) s = .next { s with response := [0x00000201#32] }) ∧
    ∀ (c : Cfg) (s : State) (samples : List F32), samples.length ≠ c.n →
      execAt c (.processBlock samples) s = .next { s with response := [0x00000201#32] }

/-- R151: from the state after `INIT`, a block of `N` samples `+0.0` gives `N` samples `+0.0` and leaves every register as it
is. -/
def Obligations.SilenceGivesSilence : Prop :=
  ∀ s : State, s.block = State.reset.block →
    exec (.processBlock (List.replicate 128 ⟨0#32⟩)) s = .next
      { s with response := 0x00000000#32 :: List.replicate 128 0x00000000#32 }

/-- R150: once a NaN is in `delay[5]`, every output sample of the block is a NaN and `delay[5]` is still a NaN after it. -/
def Obligations.NaNInTheFeedbackTapStays : Prop :=
  ∀ (s : State) (r : Regs) (samples : List F32), s.block = .ready r → samples.length = 128 →
    r.filter.delay5.isNaN = true →
    ∃ (r' : Regs) (out : List F32), exec (.processBlock samples) s = .next
        { s with block := .ready r', response := 0x00000000#32 :: out.map (fun v => v.bits) } ∧
      out.length = 128 ∧ (∀ v ∈ out, v.isNaN = true) ∧ r'.filter.delay5.isNaN = true

/-- R63 (D24): the loop with separate buffers, whatever the output buffer held, and the loop in place in one buffer both give
the registers and the output block of the pipeline. -/
def Obligations.InPlaceEqualsSeparateBuffers : Prop :=
  ∀ (c : Cfg) (r : Regs) (samples output : List F32), output.length = samples.length →
    separateLoop c samples samples.length 0 r output = sampleLoop c r samples ∧
      inPlaceLoop c samples.length 0 r samples = sampleLoop c r samples

/-- R63, R148: an output sample depends on no later input sample: two blocks that agree on their first `k` samples give the
same first `k` output samples. -/
def Obligations.OutputsDependOnNoLaterInput : Prop :=
  ∀ (s : State) (xs ys : List F32) (k : Nat) (t u : State), xs.length = 128 → ys.length = 128 →
    xs.take k = ys.take k → exec (.processBlock xs) s = .next t → exec (.processBlock ys) s = .next u →
    t.response.take (k + 1) = u.response.take (k + 1)

/-! ### The whole machine -/

/-- R48 (its W and w entries), R25, R132, R149: the registers each command leaves as they were. -/
def Obligations.CommandsWriteOnlyTheirRegisters : Prop :=
  ∀ (i : Instr) (s t : State) (r : Regs), s.block = .ready r → exec i s = .next t →
    t.port = s.port ∧ ∃ r', t.block = .ready r' ∧
      match i with
      | .init => True
      | .setCutoff value =>
        r'.filter = r.filter ∧ r'.dc = r.dc ∧ r'.env = { r.env with manualCutoff := value } ∧
          r'.control = { r.control with targetCutoff := r'.control.targetCutoff } ∧
          (r.env.active = true → r'.control = r.control)
      | .setResonance value =>
        r'.filter = r.filter ∧ r'.dc = r.dc ∧ r'.env = r.env ∧ r'.control = { r.control with targetRes := value }
      | .setEnvActive _ =>
        r'.filter = r.filter ∧ r'.dc = r.dc ∧ r'.env = { r.env with active := r'.env.active, phase := r'.env.phase } ∧
          r'.control = { r.control with targetCutoff := r'.control.targetCutoff }
      | .setEnvDecay seconds =>
        r' = { r with env := { r.env with decay := seconds } }
      | .setEnvSustain level =>
        r' = { r with env := { r.env with sustain := level } }
      | .trigAttack _ _ _ _ =>
        r'.filter = r.filter ∧ r'.dc = r.dc ∧ r'.control = r.control ∧ r'.coeffs = r.coeffs ∧
          r'.env.cur = r.env.cur ∧ r'.env.decay = r.env.decay ∧ r'.env.sustain = r.env.sustain ∧
          r'.env.manualCutoff = r.env.manualCutoff
      | .trigRelease _ _ _ =>
        r'.filter = r.filter ∧ r'.dc = r.dc ∧ r'.control = r.control ∧ r'.coeffs = r.coeffs ∧
          r'.env.active = r.env.active ∧ r'.env.cur = r.env.cur ∧ r'.env.decay = r.env.decay ∧
          r'.env.sustain = r.env.sustain ∧ r'.env.manualCutoff = r.env.manualCutoff
      | .advanceEnv _ =>
        r'.filter = r.filter ∧ r'.dc = r.dc ∧
          r'.control = { r.control with targetCutoff := r'.control.targetCutoff } ∧
          r'.env.active = r.env.active ∧ r'.env.decay = r.env.decay ∧ r'.env.sustain = r.env.sustain ∧
          r'.env.manualCutoff = r.env.manualCutoff ∧
          (r.env.active = false → r'.control = r.control ∧ r'.coeffs = r.coeffs)
      | .processBlock _ =>
        r'.env = r.env ∧
          r'.control = { r.control with liveCutoff := r'.control.liveCutoff, liveRes := r'.control.liveRes }

/-- R44: while the coefficients are those of the live values, no command but `INIT` and `PROCESS_BLOCK` changes a
coefficient: the recomputation rewrites the same three values. -/
def Obligations.RecomputationChangesNoCoefficient : Prop :=
  ∀ (i : Instr) (s t : State) (r : Regs), s.block = .ready r → r.CoeffsCurrent cfg →
    i ≠ .init → i.opcode ≠ .processBlock → exec i s = .next t →
    ∃ r', t.block = .ready r' ∧ r'.coeffs = r.coeffs

/-- R48 (its R entries), R193: what a command does to the control, coefficient and envelope registers does not depend on the
audio registers. R49: no command but `PROCESS_BLOCK` lets the host see any register: from any two initialised states its
response is the same. -/
def Obligations.AudioStateDoesNotReachControl : Prop :=
  (∀ (i : Instr) (s1 s2 t1 t2 : State) (r1 r2 : Regs), s1.block = .ready r1 → s2.block = .ready r2 →
    r1.control = r2.control → r1.coeffs = r2.coeffs → r1.env = r2.env →
    exec i s1 = .next t1 → exec i s2 = .next t2 →
    ∃ r1' r2', t1.block = .ready r1' ∧ t2.block = .ready r2' ∧
      r1'.control = r2'.control ∧ r1'.coeffs = r2'.coeffs ∧ r1'.env = r2'.env) ∧
    ∀ (i : Instr) (s1 s2 t1 t2 : State) (r1 r2 : Regs), s1.block = .ready r1 → s2.block = .ready r2 →
      i.opcode ≠ .processBlock → exec i s1 = .next t1 → exec i s2 = .next t2 → t1.response = t2.response

/-- R24 and R22: every step keeps `stage[k] = delay[k]`, `delay[4] = stage[3]` and the three saturator caches. -/
def Obligations.StagesAndCachesAreKept : Prop :=
  ∀ s t : State, s.Holds (fun r => r.filter.StageIsDelay ∧ r.filter.CachesCurrent cfg) → step s = .next t →
    t.Holds (fun r => r.filter.StageIsDelay ∧ r.filter.CachesCurrent cfg)

/-- R24: a sub-step makes the stages equal the delays whatever the registers held before. -/
def Obligations.SubstepMakesStagesDelays : Prop :=
  ∀ (c : Cfg) (k : Coeffs) (u : F64) (f : Filter),
    (substep c k u f).StageIsDelay ∧ (substep c k u f).CachesCurrent c

/-- R44: every step keeps the coefficients equal to `COEF` of the live values, in the deployed machine and in the machine built
with any `CFG` (R7). -/
def Obligations.CoefficientsStayCurrent : Prop :=
  (∀ s t : State, s.Holds (Regs.CoeffsCurrent cfg) → step s = .next t → t.Holds (Regs.CoeffsCurrent cfg)) ∧
    ∀ (c : Cfg) (s t : State), s.Holds (Regs.CoeffsCurrent c) → stepAt c s = .next t → t.Holds (Regs.CoeffsCurrent c)

/-- R47, R194 and R167: every step keeps these three together: an inactive envelope is in Idle or Release; while it is inactive
the cutoff target is the manual cutoff; in Held the target is the envelope cutoff. In the deployed machine and in the machine
built with any `CFG` (R7). -/
def Obligations.EnvelopeAndTargetStayConsistent : Prop :=
  (∀ s t : State,
    s.Holds (fun r => r.InactiveIsIdleOrRelease ∧ r.ManualOwnsTarget ∧ r.HeldIsPropagated) → step s = .next t →
    t.Holds (fun r => r.InactiveIsIdleOrRelease ∧ r.ManualOwnsTarget ∧ r.HeldIsPropagated)) ∧
    ∀ (c : Cfg) (s t : State),
      s.Holds (fun r => r.InactiveIsIdleOrRelease ∧ r.ManualOwnsTarget ∧ r.HeldIsPropagated) → stepAt c s = .next t →
      t.Holds (fun r => r.InactiveIsIdleOrRelease ∧ r.ManualOwnsTarget ∧ r.HeldIsPropagated)

/-- The relations that every step keeps hold at reset, and hold before it. -/
def Obligations.ResetMeetsTheInvariants : Prop :=
  ∀ s ∈ [State.reset, State.powerOn],
    s.Holds (fun r => r.filter.StageIsDelay ∧ r.filter.CachesCurrent cfg) ∧ s.Holds (Regs.CoeffsCurrent cfg) ∧
      s.Holds (fun r => r.InactiveIsIdleOrRelease ∧ r.ManualOwnsTarget ∧ r.HeldIsPropagated)
end

