-- ==== Sys2Proof/Laws/Decode.lean ====
section
/-! SUPPORT. What the decoder does with a header and the words after it, once, for the proofs to cite. -/

namespace Sys2Proof

theorem cfg_n : cfg.n = 128 := rfl

/-- The decoder waits for the announced words, then answers what the checks of R90 say of the packet. -/
theorem decodeAt_cons (n : Nat) (h : Word) (words : List Word) :
    decodeAt n (h :: words) =
      if words.length < headerLen h then .incomplete
      else
        match decodeBody n h (words.take (headerLen h)) with
        | .ok i => .command i (words.drop (headerLen h))
        | .error k => .malformed k (words.drop (headerLen h)) := rfl

theorem decode_eq (words : List Word) : decode words = decodeAt cfg.n words := rfl

/-- An opcode is read from its own number only. -/
theorem Opcode.code_of_ofCode {b : BitVec 8} {op : Opcode} (h : Opcode.ofCode b = some op) : b = op.code := by
  apply BitVec.eq_of_toNat_eq
  unfold Opcode.ofCode at h
  split at h <;> first
    | (cases h; assumption)
    | cases h

theorem Opcode.ofCode_code (op : Opcode) : Opcode.ofCode op.code = some op := by cases op <;> rfl

theorem Opcode.ofCode_none {b : BitVec 8} : Opcode.ofCode b = none ↔ 10 ≤ b.toNat := by
  unfold Opcode.ofCode
  split <;> simp_all
  omega

theorem header_fields (h : Word) : header (headerOpcode h) (headerArg h) (headerLen h) = h := by
  have := h.isLt
  apply BitVec.eq_of_toNat_eq
  simp only [header, headerOpcode, headerArg, headerLen, BitVec.extractLsb'_toNat, BitVec.toNat_ofNat,
    Nat.shiftRight_eq_div_pow]
  omega

theorem F64.toNat_ofWords (a b : Word) : (F64.ofWords a b).bits.toNat = a.toNat + b.toNat * 2 ^ 32 := by
  have := a.isLt
  have := b.isLt
  rw [F64.ofWords, BitVec.toNat_ofNat, Nat.mod_eq_of_lt (by omega)]

@[simp] theorem F64.lowWord_ofWords (a b : Word) : (F64.ofWords a b).lowWord = a := by
  have := a.isLt
  apply BitVec.eq_of_toNat_eq
  rw [F64.lowWord, BitVec.extractLsb'_toNat, F64.toNat_ofWords, Nat.shiftRight_zero]
  omega

@[simp] theorem F64.highWord_ofWords (a b : Word) : (F64.ofWords a b).highWord = b := by
  have := a.isLt
  have := b.isLt
  apply BitVec.eq_of_toNat_eq
  rw [F64.highWord, BitVec.extractLsb'_toNat, F64.toNat_ofWords, Nat.shiftRight_eq_div_pow]
  omega

end Sys2Proof
end

