-- ==== Sys2Proof/Laws/Rounding.lean ====
section
/-! SUPPORT. What rounding to nearest even does, once for every format: the value of a pattern grows with the pattern, and
the rounded pattern is one of the two neighbours of the exact result. -/

namespace Sys2Proof

/-- The value of a pattern whose significand, hidden bit included, is `n` at exponent shift `k`. -/
theorem Format.units_shift (f : Format) (k n : Nat) (hn : n < 2 * 2 ^ (f.prec - 1))
    (hk : k = 0 ∨ 2 ^ (f.prec - 1) ≤ n) :
    f.units (k * 2 ^ (f.prec - 1) + n) = n * 2 ^ k := by
  have hP : 0 < 2 ^ (f.prec - 1) := by positivity
  unfold Format.units
  generalize 2 ^ (f.prec - 1) = P at *
  by_cases hlt : n < P
  · obtain rfl : k = 0 := by omega
    simp [Nat.div_eq_of_lt hlt, Nat.mod_eq_of_lt hlt]
  · obtain ⟨x, rfl⟩ : ∃ x, n = P + x := ⟨n - P, by omega⟩
    have hx : x < P := by omega
    have e1 : (k * P + (P + x)) / P = k + 1 := by
      rw [show k * P + (P + x) = x + (k + 1) * P by ring, Nat.add_mul_div_right _ _ hP,
        Nat.div_eq_of_lt hx, Nat.zero_add]
    have e2 : (k * P + (P + x)) % P = x := by
      rw [show k * P + (P + x) = x + (k + 1) * P by ring, Nat.add_mul_mod_self_right,
        Nat.mod_eq_of_lt hx]
    simp [e1, e2]

/-- The next pattern's value, where the significand may carry into the exponent. -/
theorem Format.units_shift_succ (f : Format) (k n : Nat) (hn : n < 2 * 2 ^ (f.prec - 1))
    (hk : k = 0 ∨ 2 ^ (f.prec - 1) ≤ n) :
    f.units (k * 2 ^ (f.prec - 1) + n + 1) = (n + 1) * 2 ^ k := by
  by_cases h : n + 1 < 2 * 2 ^ (f.prec - 1)
  · rw [Nat.add_assoc]; exact f.units_shift k (n + 1) h (by omega)
  · have hP : 0 < 2 ^ (f.prec - 1) := by positivity
    have e : k * 2 ^ (f.prec - 1) + n + 1 = (k + 1) * 2 ^ (f.prec - 1) + 2 ^ (f.prec - 1) := by
      rw [Nat.add_mul]; omega
    rw [e, f.units_shift (k + 1) _ (by omega) (Or.inr le_rfl)]
    have : n + 1 = 2 * 2 ^ (f.prec - 1) := by omega
    rw [this, pow_succ]; ring

/-- Every pattern is a significand at a shift. -/
theorem Format.exists_shift (f : Format) (m : Nat) :
    ∃ k n, m = k * 2 ^ (f.prec - 1) + n ∧ n < 2 * 2 ^ (f.prec - 1) ∧
      (k = 0 ∨ 2 ^ (f.prec - 1) ≤ n) := by
  have hP : 0 < 2 ^ (f.prec - 1) := by positivity
  have h1 := Nat.div_add_mod m (2 ^ (f.prec - 1))
  have h2 := Nat.mod_lt m hP
  generalize 2 ^ (f.prec - 1) = P at *
  generalize m / P = e at *
  cases e with
  | zero => exact ⟨0, m, by omega, by simp at h1; omega, Or.inl rfl⟩
  | succ e =>
    refine ⟨e, P + m % P, ?_, by omega, Or.inr (by omega)⟩
    have : P * (e + 1) = e * P + P := by ring
    omega

theorem Format.units_lt_succ (f : Format) (m : Nat) : f.units m < f.units (m + 1) := by
  obtain ⟨k, n, rfl, hn, hk⟩ := f.exists_shift m
  rw [f.units_shift k n hn hk, f.units_shift_succ k n hn hk]
  exact Nat.mul_lt_mul_of_pos_right (Nat.lt_succ_self n) (by positivity)

theorem Format.units_strictMono (f : Format) : StrictMono f.units :=
  strictMono_nat_of_lt_succ f.units_lt_succ

@[simp] theorem Format.units_zero (f : Format) : f.units 0 = 0 := by
  simp [Format.units]

/-- The neighbours of the exact result, and which of them the rounded pattern is. -/
theorem Format.roundMag_spec (f : Format) (hp : 2 ≤ f.prec) (num den : Nat) (hd : 0 < den) :
    ∃ m, f.units m * den ≤ num ∧ num < f.units (m + 1) * den ∧
      f.roundMag num den =
        min (if (f.units m + f.units (m + 1)) * den < 2 * num ∨
            ((f.units m + f.units (m + 1)) * den = 2 * num ∧ m % 2 = 1) then m + 1 else m) f.infMag := by
  set k := Nat.log2 (num / den) + 1 - f.prec with hk
  set d := den * 2 ^ k with hdd
  have hd' : 0 < d := by positivity
  set n := num / d with hn
  have hP2 : 2 * 2 ^ (f.prec - 1) = 2 ^ f.prec := by
    rw [← pow_succ']; congr 1; omega
  have hnq : n = num / den / 2 ^ k := by rw [hn, hdd, Nat.div_div_eq_div_mul]
  have hlt : n < 2 * 2 ^ (f.prec - 1) := by
    rw [hP2, hnq, Nat.div_lt_iff_lt_mul (by positivity), ← pow_add]
    refine lt_of_lt_of_le (Nat.lt_log2_self (n := num / den)) (Nat.pow_le_pow_right (by norm_num) (by omega))
  have hge : k = 0 ∨ 2 ^ (f.prec - 1) ≤ n := by
    by_cases h0 : k = 0
    · exact Or.inl h0
    · right
      have hq : num / den ≠ 0 := by
        intro h; rw [h] at hk; simp at hk; omega
      rw [hnq, Nat.le_div_iff_mul_le (by positivity), ← pow_add]
      refine le_trans (Nat.pow_le_pow_right (by norm_num) ?_) (Nat.log2_self_le hq)
      omega
  have hr := Nat.div_add_mod num d
  have hrl := Nat.mod_lt num hd'
  refine ⟨k * 2 ^ (f.prec - 1) + n, ?_, ?_, ?_⟩
  · rw [f.units_shift k n hlt hge]
    calc n * 2 ^ k * den = d * (num / d) := by rw [hdd, hn]; ring
      _ ≤ num := by omega
  · rw [f.units_shift_succ k n hlt hge]
    calc num = d * n + num % d := by rw [hn]; omega
      _ < d * n + d := by omega
      _ = (n + 1) * 2 ^ k * den := by rw [hdd]; ring
  · rw [f.units_shift_succ k n hlt hge, f.units_shift k n hlt hge]
    have hpar : (k * 2 ^ (f.prec - 1) + n) % 2 = n % 2 := by
      obtain ⟨j, hj⟩ : ∃ j, f.prec - 1 = j + 1 := ⟨f.prec - 2, by omega⟩
      rw [hj, pow_succ, ← Nat.mul_assoc]; omega
    have hs : (n * 2 ^ k + (n + 1) * 2 ^ k) * den = 2 * (d * n) + d := by rw [hdd]; ring
    rw [hpar, hs]
    have h2 : 2 * num = 2 * (d * n) + 2 * (num % d) := by rw [hn]; omega
    have hcond : (decide (d < 2 * (num % d)) || decide (2 * (num % d) = d) && decide (n % 2 = 1)) =
        decide (2 * (d * n) + d < 2 * num ∨ (2 * (d * n) + d = 2 * num ∧ n % 2 = 1)) := by
      rw [← Bool.decide_and, ← Bool.decide_or, decide_eq_decide, h2]
      constructor <;> (intro h; omega)
    unfold Format.roundMag
    simp only [← hk, ← hdd, ← hn]
    rw [hcond]
    by_cases hc : 2 * (d * n) + d < 2 * num ∨ (2 * (d * n) + d = 2 * num ∧ n % 2 = 1)
    · simp only [hc, decide_true, if_true, Nat.add_assoc]
    · simp only [hc, decide_false, if_false]; rfl

theorem Format.roundMag_le_infMag (f : Format) (num den : Nat) : f.roundMag num den ≤ f.infMag :=
  min_le_right _ _

/-- Rounding is monotone. -/
theorem Format.roundMag_mono (f : Format) (hp : 2 ≤ f.prec) {a b c d : Nat} (hb : 0 < b) (hd : 0 < d)
    (h : a * d ≤ c * b) : f.roundMag a b ≤ f.roundMag c d := by
  obtain ⟨m, h1, -, h3⟩ := f.roundMag_spec hp a b hb
  obtain ⟨m', -, h2', h3'⟩ := f.roundMag_spec hp c d hd
  have hlt : f.units m < f.units (m' + 1) := by
    have x1 : f.units m * b * d ≤ a * d := Nat.mul_le_mul_right _ h1
    have x2 : c * b < f.units (m' + 1) * d * b := Nat.mul_lt_mul_of_pos_right h2' hb
    have : f.units m * (b * d) < f.units (m' + 1) * (b * d) := by nlinarith
    exact lt_of_mul_lt_mul_right this (Nat.zero_le _)
  have hm : m ≤ m' := by have := f.units_strictMono.lt_iff_lt.mp hlt; omega
  rw [h3, h3']
  refine min_le_min_right _ ?_
  rcases Nat.lt_or_ge m m' with hl | hl
  · split <;> split <;> omega
  · obtain rfl : m = m' := by omega
    by_cases hc : (f.units m + f.units (m + 1)) * b < 2 * a ∨
        ((f.units m + f.units (m + 1)) * b = 2 * a ∧ m % 2 = 1)
    · have hc' : (f.units m + f.units (m + 1)) * d < 2 * c ∨
          ((f.units m + f.units (m + 1)) * d = 2 * c ∧ m % 2 = 1) := by
        generalize f.units m + f.units (m + 1) = S at *
        rcases hc with hc | ⟨hc, hodd⟩
        · left
          have : S * d * b < 2 * c * b := by nlinarith
          exact lt_of_mul_lt_mul_right this (Nat.zero_le _)
        · have : S * d * b ≤ 2 * c * b := by nlinarith
          have := le_of_mul_le_mul_right this hb
          omega
      simp only [hc, hc', if_true, le_refl]
    · simp only [hc, if_false]; split <;> omega

/-- A representable value is its own rounding. -/
theorem Format.roundMag_units (f : Format) (hp : 2 ≤ f.prec) (m den : Nat) (hd : 0 < den) :
    f.roundMag (f.units m * den) den = min m f.infMag := by
  obtain ⟨m', h1, h2, h3⟩ := f.roundMag_spec hp (f.units m * den) den hd
  have a1 := f.units_strictMono.le_iff_le.mp (le_of_mul_le_mul_right h1 hd)
  have a2 := f.units_strictMono.lt_iff_lt.mp (lt_of_mul_lt_mul_right h2 (Nat.zero_le _))
  obtain rfl : m' = m := by omega
  have hu := f.units_lt_succ m'
  have hc : ¬((f.units m' + f.units (m' + 1)) * den < 2 * (f.units m' * den) ∨
      ((f.units m' + f.units (m' + 1)) * den = 2 * (f.units m' * den) ∧ m' % 2 = 1)) := by
    have : f.units m' * den < f.units (m' + 1) * den := Nat.mul_lt_mul_of_pos_right hu hd
    rw [Nat.add_mul]; omega
  rw [h3, if_neg hc]

/-- What does not exceed a representable value does not round past it. -/
theorem Format.roundMag_le (f : Format) (hp : 2 ≤ f.prec) {num den m : Nat} (hd : 0 < den)
    (h : num ≤ f.units m * den) : f.roundMag num den ≤ m := by
  have := f.roundMag_mono hp hd hd (a := num) (c := f.units m * den) (Nat.mul_le_mul_right _ h)
  rw [f.roundMag_units hp m den hd] at this
  exact this.trans (min_le_left _ _)

theorem Format.le_roundMag (f : Format) (hp : 2 ≤ f.prec) {num den m : Nat} (hd : 0 < den)
    (hm : m ≤ f.infMag) (h : f.units m * den ≤ num) : m ≤ f.roundMag num den := by
  have := f.roundMag_mono hp hd hd (a := f.units m * den) (c := num) (Nat.mul_le_mul_right _ h)
  rw [f.roundMag_units hp m den hd, min_eq_left hm] at this
  exact this

@[simp] theorem Format.roundMag_zero (f : Format) (hp : 2 ≤ f.prec) (den : Nat) (hd : 0 < den) :
    f.roundMag 0 den = 0 := by
  have := f.roundMag_units hp 0 den hd
  simpa using this

end Sys2Proof
end

