-- ==== Sys2Proof/Laws/Float.lean ====
section
/-! SUPPORT. What each floating-point operation does, once: the class of its result and, for finite operands, its place
in the numeric order as the rounding of an exact integer ratio. -/

namespace Sys2Proof

/-- The place in the numeric order of the rounding of `z / den` units. -/
def Format.signedRound (f : Format) (z : Int) (den : Nat) : Int :=
  if z < 0 then -(f.roundMag z.natAbs den : Int) else (f.roundMag z.natAbs den : Int)

theorem Format.signedRound_mono (f : Format) (hp : 2 ≤ f.prec) {x y : Int} {a b : Nat} (ha : 0 < a) (hb : 0 < b)
    (h : x * b ≤ y * a) : f.signedRound x a ≤ f.signedRound y b := by
  unfold Format.signedRound
  by_cases hx : x < 0 <;> by_cases hy : y < 0
  · rw [if_pos hx, if_pos hy]
    have : f.roundMag y.natAbs b ≤ f.roundMag x.natAbs a := by
      refine f.roundMag_mono hp hb ha ?_
      have e1 : (x.natAbs : Int) = -x := by omega
      have e2 : (y.natAbs : Int) = -y := by omega
      zify; rw [abs_of_neg hx, abs_of_neg hy]; nlinarith
    omega
  · rw [if_pos hx, if_neg hy]; omega
  · exfalso
    have h1 : 0 ≤ x * b := by exact mul_nonneg (by omega) (by positivity)
    have h2 : y * a < 0 := by nlinarith
    omega
  · rw [if_neg hx, if_neg hy]
    have : f.roundMag x.natAbs a ≤ f.roundMag y.natAbs b := by
      refine f.roundMag_mono hp ha hb ?_
      zify; rw [abs_of_nonneg (by omega), abs_of_nonneg (by omega)]; exact h
    omega

/-- The value, in units, of the place `k` of a finite datum. -/
def Format.keyUnits (f : Format) (k : Int) : Int :=
  if k < 0 then -(f.units k.natAbs : Int) else (f.units k.natAbs : Int)

theorem Format.keyUnits_strictMono (f : Format) : StrictMono f.keyUnits := by
  intro x y h
  have hm := f.units_strictMono
  have h0 := f.units_zero
  unfold Format.keyUnits
  by_cases hx : x < 0 <;> by_cases hy : y < 0
  · rw [if_pos hx, if_pos hy]
    have := hm (show y.natAbs < x.natAbs by omega); omega
  · rw [if_pos hx, if_neg hy]
    have := hm (show 0 < x.natAbs by omega); omega
  · omega
  · rw [if_neg hx, if_neg hy]
    have := hm (show x.natAbs < y.natAbs by omega); omega

/-- A representable value is its own rounding. -/
theorem Format.signedRound_keyUnits (f : Format) (hp : 2 ≤ f.prec) (k : Int) (hk : k.natAbs ≤ f.infMag) (den : Nat)
    (hd : 0 < den) : f.signedRound (f.keyUnits k * den) den = k := by
  have hm := f.units_strictMono
  have h0 := f.units_zero
  have key := f.roundMag_units hp k.natAbs den hd
  rw [min_eq_left hk] at key
  unfold Format.signedRound Format.keyUnits
  by_cases hx : k < 0
  · have hu := hm (show 0 < k.natAbs by omega)
    have hneg : -(f.units k.natAbs : Int) * den < 0 := by
      have : (0:Int) < f.units k.natAbs := by omega
      nlinarith [(by exact_mod_cast hd : (0:Int) < den)]
    rw [if_pos hx, if_pos hneg]
    have : (-(f.units k.natAbs : Int) * den).natAbs = f.units k.natAbs * den := by
      rw [Int.natAbs_mul, Int.natAbs_neg, Int.natAbs_natCast, Int.natAbs_natCast]
    rw [this, key]; omega
  · rw [if_neg hx, if_neg (not_lt.mpr (mul_nonneg (Int.natCast_nonneg _) (Int.natCast_nonneg _)))]
    have : ((f.units k.natAbs : Int) * den).natAbs = f.units k.natAbs * den := by
      rw [Int.natAbs_mul, Int.natAbs_natCast, Int.natAbs_natCast]
    rw [this, key]; omega

theorem Format.signedRound_zero (f : Format) (hp : 2 ≤ f.prec) (den : Nat) (hd : 0 < den) :
    f.signedRound 0 den = 0 := by
  simp [Format.signedRound, f.roundMag_zero hp den hd]

/-- Bounds by representable values. -/
theorem Format.signedRound_le (f : Format) (hp : 2 ≤ f.prec) {z k : Int} {den : Nat} (hd : 0 < den)
    (hk : k.natAbs ≤ f.infMag) (h : z ≤ f.keyUnits k * den) : f.signedRound z den ≤ k := by
  have := f.signedRound_mono hp hd hd (x := z) (y := f.keyUnits k * den)
    (mul_le_mul_of_nonneg_right h (by positivity))
  rwa [f.signedRound_keyUnits hp k hk den hd] at this

theorem Format.le_signedRound (f : Format) (hp : 2 ≤ f.prec) {z k : Int} {den : Nat} (hd : 0 < den)
    (hk : k.natAbs ≤ f.infMag) (h : f.keyUnits k * den ≤ z) : k ≤ f.signedRound z den := by
  have := f.signedRound_mono hp hd hd (x := f.keyUnits k * den) (y := z)
    (mul_le_mul_of_nonneg_right h (by positivity))
  rwa [f.signedRound_keyUnits hp k hk den hd] at this

/-- The signed value of a sign and a magnitude. -/
def signedUnits (neg : Bool) (m : Nat) : Int := if neg then -(m : Int) else (m : Int)

theorem Format.signedRound_sign (f : Format) (hp : 2 ≤ f.prec) (s : Bool) (m den : Nat) (hd : 0 < den) :
    f.signedRound (signedUnits s m) den =
      if s then -(f.roundMag m den : Int) else (f.roundMag m den : Int) := by
  unfold Format.signedRound signedUnits
  cases s
  · simp
  · by_cases h0 : m = 0
    · subst h0; simp [f.roundMag_zero hp den hd]
    · have : (-(m : Int)) < 0 := by omega
      simp only [if_true, if_pos this, Int.natAbs_neg, Int.natAbs_natCast]

/-- The exact sum of two finite values. -/
theorem Val.add_fin (s t : Bool) (a b : Nat) : ∃ u m,
    Val.add (.fin s a) (.fin t b) = .ratio u m 1 ∧
      signedUnits u m = signedUnits s a + signedUnits t b := by
  unfold Val.add signedUnits
  by_cases hst : s = t
  · subst hst; refine ⟨s, a + b, by simp, ?_⟩
    cases s <;> simp; try ring
  · by_cases hab : a = b
    · subst hab; refine ⟨false, 0, by simp [hst], ?_⟩
      cases s <;> cases t <;> simp at hst ⊢
    · by_cases hlt : b < a
      · refine ⟨s, a - b, by simp [hst, hab, hlt], ?_⟩
        cases s <;> cases t <;> simp at hst ⊢ <;> omega
      · refine ⟨t, b - a, by simp [hst, hab, hlt], ?_⟩
        cases s <;> cases t <;> simp at hst ⊢ <;> omega

theorem signedUnits_mul (s t : Bool) (a b : Nat) :
    signedUnits (s != t) (a * b) = signedUnits s a * signedUnits t b := by
  cases s <;> cases t <;> simp [signedUnits]

theorem signedUnits_false (a : Nat) : signedUnits false a = a := rfl

theorem signedUnits_not (s : Bool) (a : Nat) : signedUnits (!s) a = -signedUnits s a := by
  cases s <;> simp [signedUnits]

@[simp] theorem binary32_prec : 2 ≤ binary32.prec := by decide
@[simp] theorem binary64_prec : 2 ≤ binary64.prec := by decide
theorem binary32_infMag : binary32.infMag = 0x7F800000 := by decide
theorem binary64_infMag : binary64.infMag = 0x7FF0000000000000 := by decide
theorem binary32_signWeight : binary32.signWeight = 2 ^ 31 := by decide
theorem binary64_signWeight : binary64.signWeight = 2 ^ 63 := by decide

/-! ### binary32 -/

theorem F32.val_eq (a : F32) : a.val =
    if a.isNaN then .nan else if a.isFinite then .fin a.neg? (binary32.units a.mag) else .inf a.neg? := by
  unfold F32.val Format.val F32.isNaN F32.isFinite F32.neg? F32.mag
  rw [binary32_signWeight, binary32_infMag]
  generalize a.bits.toNat % 2 ^ 31 = m
  by_cases h1 : 0x7F800000 < m
  · simp [h1]
  · by_cases h2 : m = 0x7F800000
    · simp [h2]
    · have h3 : m < 0x7F800000 := by omega
      simp [h1, h2, h3]

theorem F32.val_finite {a : F32} (h : a.isFinite = true) : a.val = .fin a.neg? (binary32.units a.mag) := by
  have : a.isNaN = false := by
    simp only [F32.isFinite, F32.isNaN, decide_eq_true_eq, decide_eq_false_iff_not] at *; omega
  simp [F32.val_eq, h, this]

theorem F32.not_nan_of_finite {a : F32} (h : a.isFinite = true) : a.isNaN = false := by
  simp only [F32.isFinite, F32.isNaN, decide_eq_true_eq, decide_eq_false_iff_not] at *; omega

theorem F32.val_nan {a : F32} : a.val = .nan ↔ a.isNaN = true := by
  rw [F32.val_eq]; cases a.isNaN <;> cases a.isFinite <;> simp

theorem F32.toUnits_eq (a : F32) : a.toUnits = signedUnits a.neg? (binary32.units a.mag) := rfl

theorem F32.key_natAbs (a : F32) : a.key.natAbs = a.mag := by
  unfold F32.key; split <;> omega

theorem F32.key_le_inf {a : F32} (h : a.isNaN = false) : a.key.natAbs ≤ binary32.infMag := by
  rw [F32.key_natAbs, binary32_infMag]; simpa [F32.isNaN] using h

theorem F32.toUnits_keyUnits (a : F32) : a.toUnits = binary32.keyUnits a.key := by
  have hm := a.key_natAbs
  unfold Format.keyUnits
  rw [hm]
  unfold F32.toUnits F32.key
  cases hs : a.neg?
  · simp
  · by_cases h0 : a.mag = 0
    · simp [h0]
    · have : -(a.mag : Int) < 0 := by omega
      simp only [if_true, if_pos this]

theorem F32.toUnits_le_iff (a b : F32) : a.toUnits ≤ b.toUnits ↔ a.key ≤ b.key := by
  rw [F32.toUnits_keyUnits, F32.toUnits_keyUnits]; exact binary32.keyUnits_strictMono.le_iff_le

/-- The result of rounding a ratio is no NaN, has the ratio's sign and the rounded magnitude. -/
theorem F32.finish_ratio (s : Bool) (n d : Nat) (c : Bool × BitVec 23) :
    (F32.finish (.ratio s n d) c).mag = binary32.roundMag n d ∧
      (F32.finish (.ratio s n d) c).neg? = s := by
  have h := binary32.roundMag_le_infMag n d
  rw [binary32_infMag] at h
  unfold F32.mag F32.neg? F32.finish Format.round
  simp only [binary32_signWeight, BitVec.toNat_ofNat]
  generalize binary32.roundMag n d = m at *
  cases s
  · simp only [Bool.false_eq_true, if_false]; constructor
    · omega
    · simp only [decide_eq_false_iff_not]; omega
  · simp only [if_true]; constructor
    · omega
    · simp only [decide_eq_true_eq]; omega

theorem F32.finish_ratio_key (s : Bool) (n d : Nat) (hd : 0 < d) (c : Bool × BitVec 23) :
    (F32.finish (.ratio s n d) c).key = binary32.signedRound (signedUnits s n) d := by
  obtain ⟨h1, h2⟩ := F32.finish_ratio s n d c
  rw [Format.signedRound_sign _ (by simp) _ _ _ hd]
  unfold F32.key; rw [h1, h2]

theorem F32.finish_inf (s : Bool) (c : Bool × BitVec 23) :
    (F32.finish (.inf s) c).mag = 0x7F800000 ∧ (F32.finish (.inf s) c).neg? = s := by
  cases s <;> (simp only [F32.finish, Format.round]; decide)

theorem F32.isNaN_ofNaN (c : Bool × BitVec 23) : (F32.ofNaN c).isNaN = true := by
  obtain ⟨s, p⟩ := c
  have hl := p.isLt
  simp only [F32.isNaN, F32.mag, F32.ofNaN, BitVec.toNat_ofNat, decide_eq_true_eq]
  cases s <;> simp only [Bool.false_eq_true, if_true, if_false] <;> omega

theorem F32.isNaN_finish (e : Exact) (c : Bool × BitVec 23) :
    (F32.finish e c).isNaN = true ↔ e = .invalid := by
  cases e with
  | invalid => simp only [iff_true]; exact F32.isNaN_ofNaN c
  | inf s => simp [F32.isNaN, (F32.finish_inf s c).1]
  | ratio s n d =>
    have h := binary32.roundMag_le_infMag n d
    rw [binary32_infMag] at h
    simp only [F32.isNaN, (F32.finish_ratio s n d c).1, decide_eq_true_eq, reduceCtorEq, iff_false]
    omega

theorem F32.finite_of_key {a : F32} {l : Nat} (h : a.key.natAbs ≤ l) (hl : l < 0x7F800000) : a.isFinite = true := by
  rw [F32.key_natAbs] at h; simp only [F32.isFinite, decide_eq_true_eq]; omega

theorem F32.le_iff {a b : F32} : F32.le a b = true ↔ a.isNaN = false ∧ b.isNaN = false ∧ a.key ≤ b.key := by
  simp [F32.le, and_assoc]

theorem F32.lt_iff {a b : F32} : F32.lt a b = true ↔ a.isNaN = false ∧ b.isNaN = false ∧ a.key < b.key := by
  simp [F32.lt, and_assoc]

theorem F32.add_finite {a b : F32} (ha : a.isFinite = true) (hb : b.isFinite = true) :
    (a.add b).isNaN = false ∧ (a.add b).key = binary32.signedRound (a.toUnits + b.toUnits) 1 := by
  unfold F32.add
  rw [F32.val_finite ha, F32.val_finite hb]
  obtain ⟨u, m, h1, h2⟩ := Val.add_fin a.neg? b.neg? (binary32.units a.mag) (binary32.units b.mag)
  rw [h1, F32.finish_ratio_key _ _ _ (by norm_num), h2]
  refine ⟨?_, rfl⟩
  rw [Bool.eq_false_iff, Ne, F32.isNaN_finish]; simp

theorem F32.sub_finite {a b : F32} (ha : a.isFinite = true) (hb : b.isFinite = true) :
    (a.sub b).isNaN = false ∧ (a.sub b).key = binary32.signedRound (a.toUnits - b.toUnits) 1 := by
  unfold F32.sub
  rw [F32.val_finite ha, F32.val_finite hb, Val.negate]
  obtain ⟨u, m, h1, h2⟩ := Val.add_fin a.neg? (!b.neg?) (binary32.units a.mag) (binary32.units b.mag)
  rw [h1, F32.finish_ratio_key _ _ _ (by norm_num), h2, signedUnits_not]
  refine ⟨?_, rfl⟩
  rw [Bool.eq_false_iff, Ne, F32.isNaN_finish]; simp

theorem F32.mul_finite {a b : F32} (ha : a.isFinite = true) (hb : b.isFinite = true) :
    (a.mul b).isNaN = false ∧ (a.mul b).key = binary32.signedRound (a.toUnits * b.toUnits) (2 ^ binary32.unit) ∧
      (a.mul b).neg? = (a.neg? != b.neg?) := by
  unfold F32.mul
  rw [F32.val_finite ha, F32.val_finite hb]
  simp only [Val.mul]
  rw [F32.finish_ratio_key _ _ _ (by positivity), signedUnits_mul]
  refine ⟨?_, rfl, (F32.finish_ratio _ _ _ _).2⟩
  rw [Bool.eq_false_iff, Ne, F32.isNaN_finish]; simp

/-- A NaN operand makes a NaN. -/
theorem F32.add_nan {a b : F32} (h : a.isNaN = true ∨ b.isNaN = true) : (a.add b).isNaN = true := by
  unfold F32.add; rw [F32.isNaN_finish]
  rcases h with h | h
  · rw [F32.val_nan.mpr h]; simp [Val.add]
  · rw [F32.val_nan.mpr h]; cases a.val <;> simp [Val.add]

theorem F32.sub_nan {a b : F32} (h : a.isNaN = true ∨ b.isNaN = true) : (a.sub b).isNaN = true := by
  unfold F32.sub; rw [F32.isNaN_finish]
  rcases h with h | h
  · rw [F32.val_nan.mpr h]; simp [Val.add]
  · rw [F32.val_nan.mpr h]; cases a.val <;> simp [Val.add, Val.negate]

theorem F32.mul_nan {a b : F32} (h : a.isNaN = true ∨ b.isNaN = true) : (a.mul b).isNaN = true := by
  unfold F32.mul; rw [F32.isNaN_finish]
  rcases h with h | h
  · rw [F32.val_nan.mpr h]; simp [Val.mul]
  · rw [F32.val_nan.mpr h]; cases a.val <;> simp [Val.mul]

/-! ### binary64 -/

theorem F64.val_eq (a : F64) : a.val =
    if a.isNaN then .nan else if a.isFinite then .fin a.neg? (binary64.units a.mag) else .inf a.neg? := by
  unfold F64.val Format.val F64.isNaN F64.isFinite F64.neg? F64.mag
  rw [binary64_signWeight, binary64_infMag]
  generalize a.bits.toNat % 2 ^ 63 = m
  by_cases h1 : 0x7FF0000000000000 < m
  · simp [h1]
  · by_cases h2 : m = 0x7FF0000000000000
    · simp [h2]
    · have h3 : m < 0x7FF0000000000000 := by omega
      simp [h1, h2, h3]

theorem F64.val_finite {a : F64} (h : a.isFinite = true) : a.val = .fin a.neg? (binary64.units a.mag) := by
  have : a.isNaN = false := by
    simp only [F64.isFinite, F64.isNaN, decide_eq_true_eq, decide_eq_false_iff_not] at *; omega
  simp [F64.val_eq, h, this]

theorem F64.not_nan_of_finite {a : F64} (h : a.isFinite = true) : a.isNaN = false := by
  simp only [F64.isFinite, F64.isNaN, decide_eq_true_eq, decide_eq_false_iff_not] at *; omega

theorem F64.val_nan {a : F64} : a.val = .nan ↔ a.isNaN = true := by
  rw [F64.val_eq]; cases a.isNaN <;> cases a.isFinite <;> simp

theorem F64.toUnits_eq (a : F64) : a.toUnits = signedUnits a.neg? (binary64.units a.mag) := rfl

theorem F64.key_natAbs (a : F64) : a.key.natAbs = a.mag := by
  unfold F64.key; split <;> omega

theorem F64.key_le_inf {a : F64} (h : a.isNaN = false) : a.key.natAbs ≤ binary64.infMag := by
  rw [F64.key_natAbs, binary64_infMag]; simpa [F64.isNaN] using h

theorem F64.toUnits_keyUnits (a : F64) : a.toUnits = binary64.keyUnits a.key := by
  have hm := a.key_natAbs
  unfold Format.keyUnits
  rw [hm]
  unfold F64.toUnits F64.key
  cases hs : a.neg?
  · simp
  · by_cases h0 : a.mag = 0
    · simp [h0]
    · have : -(a.mag : Int) < 0 := by omega
      simp only [if_true, if_pos this]

theorem F64.toUnits_le_iff (a b : F64) : a.toUnits ≤ b.toUnits ↔ a.key ≤ b.key := by
  rw [F64.toUnits_keyUnits, F64.toUnits_keyUnits]; exact binary64.keyUnits_strictMono.le_iff_le

/-- The result of rounding a ratio is no NaN, has the ratio's sign and the rounded magnitude. -/
theorem F64.finish_ratio (s : Bool) (n d : Nat) (c : Bool × BitVec 52) :
    (F64.finish (.ratio s n d) c).mag = binary64.roundMag n d ∧
      (F64.finish (.ratio s n d) c).neg? = s := by
  have h := binary64.roundMag_le_infMag n d
  rw [binary64_infMag] at h
  unfold F64.mag F64.neg? F64.finish Format.round
  simp only [binary64_signWeight, BitVec.toNat_ofNat]
  generalize binary64.roundMag n d = m at *
  cases s
  · simp only [Bool.false_eq_true, if_false]; constructor
    · omega
    · simp only [decide_eq_false_iff_not]; omega
  · simp only [if_true]; constructor
    · omega
    · simp only [decide_eq_true_eq]; omega

theorem F64.finish_ratio_key (s : Bool) (n d : Nat) (hd : 0 < d) (c : Bool × BitVec 52) :
    (F64.finish (.ratio s n d) c).key = binary64.signedRound (signedUnits s n) d := by
  obtain ⟨h1, h2⟩ := F64.finish_ratio s n d c
  rw [Format.signedRound_sign _ (by simp) _ _ _ hd]
  unfold F64.key; rw [h1, h2]

theorem F64.finish_inf (s : Bool) (c : Bool × BitVec 52) :
    (F64.finish (.inf s) c).mag = 0x7FF0000000000000 ∧ (F64.finish (.inf s) c).neg? = s := by
  cases s <;> (simp only [F64.finish, Format.round]; decide)

theorem F64.isNaN_ofNaN (c : Bool × BitVec 52) : (F64.ofNaN c).isNaN = true := by
  obtain ⟨s, p⟩ := c
  have hl := p.isLt
  simp only [F64.isNaN, F64.mag, F64.ofNaN, BitVec.toNat_ofNat, decide_eq_true_eq]
  cases s <;> simp only [Bool.false_eq_true, if_true, if_false] <;> omega

theorem F64.isNaN_finish (e : Exact) (c : Bool × BitVec 52) :
    (F64.finish e c).isNaN = true ↔ e = .invalid := by
  cases e with
  | invalid => simp only [iff_true]; exact F64.isNaN_ofNaN c
  | inf s => simp [F64.isNaN, (F64.finish_inf s c).1]
  | ratio s n d =>
    have h := binary64.roundMag_le_infMag n d
    rw [binary64_infMag] at h
    simp only [F64.isNaN, (F64.finish_ratio s n d c).1, decide_eq_true_eq, reduceCtorEq, iff_false]
    omega

theorem F64.finite_of_key {a : F64} {l : Nat} (h : a.key.natAbs ≤ l) (hl : l < 0x7FF0000000000000) : a.isFinite = true := by
  rw [F64.key_natAbs] at h; simp only [F64.isFinite, decide_eq_true_eq]; omega

theorem F64.le_iff {a b : F64} : F64.le a b = true ↔ a.isNaN = false ∧ b.isNaN = false ∧ a.key ≤ b.key := by
  simp [F64.le, and_assoc]

theorem F64.lt_iff {a b : F64} : F64.lt a b = true ↔ a.isNaN = false ∧ b.isNaN = false ∧ a.key < b.key := by
  simp [F64.lt, and_assoc]

theorem F64.add_finite {a b : F64} (ha : a.isFinite = true) (hb : b.isFinite = true) :
    (a.add b).isNaN = false ∧ (a.add b).key = binary64.signedRound (a.toUnits + b.toUnits) 1 := by
  unfold F64.add
  rw [F64.val_finite ha, F64.val_finite hb]
  obtain ⟨u, m, h1, h2⟩ := Val.add_fin a.neg? b.neg? (binary64.units a.mag) (binary64.units b.mag)
  rw [h1, F64.finish_ratio_key _ _ _ (by norm_num), h2]
  refine ⟨?_, rfl⟩
  rw [Bool.eq_false_iff, Ne, F64.isNaN_finish]; simp

theorem F64.sub_finite {a b : F64} (ha : a.isFinite = true) (hb : b.isFinite = true) :
    (a.sub b).isNaN = false ∧ (a.sub b).key = binary64.signedRound (a.toUnits - b.toUnits) 1 := by
  unfold F64.sub
  rw [F64.val_finite ha, F64.val_finite hb, Val.negate]
  obtain ⟨u, m, h1, h2⟩ := Val.add_fin a.neg? (!b.neg?) (binary64.units a.mag) (binary64.units b.mag)
  rw [h1, F64.finish_ratio_key _ _ _ (by norm_num), h2, signedUnits_not]
  refine ⟨?_, rfl⟩
  rw [Bool.eq_false_iff, Ne, F64.isNaN_finish]; simp

theorem F64.mul_finite {a b : F64} (ha : a.isFinite = true) (hb : b.isFinite = true) :
    (a.mul b).isNaN = false ∧ (a.mul b).key = binary64.signedRound (a.toUnits * b.toUnits) (2 ^ binary64.unit) ∧
      (a.mul b).neg? = (a.neg? != b.neg?) := by
  unfold F64.mul
  rw [F64.val_finite ha, F64.val_finite hb]
  simp only [Val.mul]
  rw [F64.finish_ratio_key _ _ _ (by positivity), signedUnits_mul]
  refine ⟨?_, rfl, (F64.finish_ratio _ _ _ _).2⟩
  rw [Bool.eq_false_iff, Ne, F64.isNaN_finish]; simp

/-- A NaN operand makes a NaN. -/
theorem F64.add_nan {a b : F64} (h : a.isNaN = true ∨ b.isNaN = true) : (a.add b).isNaN = true := by
  unfold F64.add; rw [F64.isNaN_finish]
  rcases h with h | h
  · rw [F64.val_nan.mpr h]; simp [Val.add]
  · rw [F64.val_nan.mpr h]; cases a.val <;> simp [Val.add]

theorem F64.sub_nan {a b : F64} (h : a.isNaN = true ∨ b.isNaN = true) : (a.sub b).isNaN = true := by
  unfold F64.sub; rw [F64.isNaN_finish]
  rcases h with h | h
  · rw [F64.val_nan.mpr h]; simp [Val.add]
  · rw [F64.val_nan.mpr h]; cases a.val <;> simp [Val.add, Val.negate]

theorem F64.mul_nan {a b : F64} (h : a.isNaN = true ∨ b.isNaN = true) : (a.mul b).isNaN = true := by
  unfold F64.mul; rw [F64.isNaN_finish]
  rcases h with h | h
  · rw [F64.val_nan.mpr h]; simp [Val.mul]
  · rw [F64.val_nan.mpr h]; cases a.val <;> simp [Val.mul]

/-! ### division and conversions -/

theorem F64.div_nan {a b : F64} (h : a.isNaN = true ∨ b.isNaN = true) : (a.div b).isNaN = true := by
  unfold F64.div; rw [F64.isNaN_finish]
  rcases h with h | h
  · rw [F64.val_nan.mpr h]; simp [Val.div]
  · rw [F64.val_nan.mpr h]; cases a.val <;> simp [Val.div]

/-- Division of a finite number by a positive finite one. -/
theorem F64.div_finite_pos {a b : F64} (ha : a.isFinite = true) (hb : b.isFinite = true) (hp : 0 < b.toUnits) :
    (a.div b).isNaN = false ∧
      (a.div b).key = binary64.signedRound (a.toUnits * 2 ^ binary64.unit) b.toUnits.natAbs := by
  have hs : b.neg? = false := by
    cases h : b.neg?
    · rfl
    · rw [F64.toUnits_eq, h] at hp; simp [signedUnits] at hp; omega
  have hu : b.toUnits = (binary64.units b.mag : Int) := by rw [F64.toUnits_eq, hs]; rfl
  have hne : binary64.units b.mag ≠ 0 := by omega
  unfold F64.div
  rw [F64.val_finite ha, F64.val_finite hb]
  simp only [Val.div, hne, if_false, hs]
  rw [F64.finish_ratio_key _ _ _ (by omega)]
  refine ⟨?_, ?_⟩
  · rw [Bool.eq_false_iff, Ne, F64.isNaN_finish]; simp
  · congr 1
    · rw [signedUnits_mul, F64.toUnits_eq, signedUnits_false, Nat.cast_pow]; rfl
    · rw [hu]; simp

theorem F32.widen_nan {a : F32} (h : a.isNaN = true) : a.widen.isNaN = true := by
  unfold F32.widen; rw [F64.isNaN_finish, F32.val_nan.mpr h]; rfl

theorem F64.narrow_nan {a : F64} (h : a.isNaN = true) : a.narrow.isNaN = true := by
  unfold F64.narrow; rw [F32.isNaN_finish, F64.val_nan.mpr h]; rfl

theorem F64.narrow_finite {a : F64} (ha : a.isFinite = true) :
    a.narrow.isNaN = false ∧ a.narrow.key = binary32.signedRound a.toUnits (2 ^ unitShift) := by
  unfold F64.narrow
  rw [F64.val_finite ha]
  simp only [Val.scale, Nat.mul_one]
  rw [F32.finish_ratio_key _ _ _ (by positivity)]
  refine ⟨?_, rfl⟩
  rw [Bool.eq_false_iff, Ne, F32.isNaN_finish]; simp

end Sys2Proof
end

