-- ==== Sys2Proof/Laws/State.lean ====
section
/-! SUPPORT. One lemma per field per update of the state and of the registers, true by unfolding. -/

namespace Sys2Proof.Machine

@[simp] theorem State.answer_block (s : State) (r : Regs) (o : List F32) : (s.answer r o).block = .ready r := rfl
@[simp] theorem State.answer_port (s : State) (r : Regs) (o : List F32) : (s.answer r o).port = s.port := rfl
@[simp] theorem State.answer_response (s : State) (r : Regs) (o : List F32) :
    (s.answer r o).response = statusOk :: o.map (fun v => v.bits) := rfl
@[simp] theorem State.raise_block (s : State) (k : Precondition) : (s.raise k).block = s.block := rfl
@[simp] theorem State.raise_port (s : State) (k : Precondition) : (s.raise k).port = s.port := rfl
@[simp] theorem State.raise_response (s : State) (k : Precondition) : (s.raise k).response = [statusErr k] := rfl

@[simp] theorem Regs.recompute_filter (c : Cfg) (r : Regs) : (r.recompute c).filter = r.filter := rfl
@[simp] theorem Regs.recompute_dc (c : Cfg) (r : Regs) : (r.recompute c).dc = r.dc := rfl
@[simp] theorem Regs.recompute_control (c : Cfg) (r : Regs) : (r.recompute c).control = r.control := rfl
@[simp] theorem Regs.recompute_env (c : Cfg) (r : Regs) : (r.recompute c).env = r.env := rfl
@[simp] theorem Regs.recompute_coeffs (c : Cfg) (r : Regs) :
    (r.recompute c).coeffs = coef c r.control.liveCutoff r.control.liveRes := rfl

@[simp] theorem smooth_liveCutoff (c : Cfg) (p : Control) :
    (smooth c p).liveCutoff = approach p.liveCutoff p.targetCutoff c.smoothCut := rfl
@[simp] theorem smooth_liveRes (c : Cfg) (p : Control) :
    (smooth c p).liveRes = approach p.liveRes p.targetRes c.smoothRes := rfl
@[simp] theorem smooth_targetCutoff (c : Cfg) (p : Control) : (smooth c p).targetCutoff = p.targetCutoff := rfl
@[simp] theorem smooth_targetRes (c : Cfg) (p : Control) : (smooth c p).targetRes = p.targetRes := rfl

@[simp] theorem prologue_filter (c : Cfg) (r : Regs) : (prologue c r).filter = r.filter := rfl
@[simp] theorem prologue_dc (c : Cfg) (r : Regs) : (prologue c r).dc = r.dc := rfl
@[simp] theorem prologue_env (c : Cfg) (r : Regs) : (prologue c r).env = r.env := rfl
@[simp] theorem prologue_control (c : Cfg) (r : Regs) : (prologue c r).control = smooth c r.control := rfl
@[simp] theorem prologue_coeffs (c : Cfg) (r : Regs) :
    (prologue c r).coeffs = coef c (smooth c r.control).liveCutoff (smooth c r.control).liveRes := rfl

@[simp] theorem sampleNext_control (c : Cfg) (r : Regs) (x : F32) : (sampleNext c r x).control = r.control := rfl
@[simp] theorem sampleNext_coeffs (c : Cfg) (r : Regs) (x : F32) : (sampleNext c r x).coeffs = r.coeffs := rfl
@[simp] theorem sampleNext_env (c : Cfg) (r : Regs) (x : F32) : (sampleNext c r x).env = r.env := rfl
@[simp] theorem sampleNext_dc (c : Cfg) (r : Regs) (x : F32) : (sampleNext c r x).dc = dcbNext c r.dc x := rfl

end Sys2Proof.Machine
end

