-- ==== Sys2Proof/Laws/Ops.lean ====
section
/-! SUPPORT. What each shared operation can do, once, for the proofs to cite. -/

namespace Sys2Proof.Machine

/-- A command answers either its registers with `OK`, or `NotInitialised` and nothing else. -/
theorem State.command_cases {s t : State} {f : Regs → Regs} (h : s.command f = .next t) :
    (∃ r, s.block = .ready r ∧ t = s.answer (f r) []) ∨
      (s.block = .uninit ∧ t = s.raise .notInitialised) := by
  unfold State.command at h
  cases hb : s.block with
  | uninit => rw [hb] at h; cases h; exact Or.inr ⟨rfl, rfl⟩
  | ready r => rw [hb] at h; cases h; exact Or.inl ⟨r, rfl, rfl⟩

theorem State.command_ready {s : State} {r : Regs} (f : Regs → Regs) (h : s.block = .ready r) :
    s.command f = .next (s.answer (f r) []) := by
  unfold State.command; rw [h]

theorem State.command_uninit {s : State} (f : Regs → Regs) (h : s.block = .uninit) :
    s.command f = .next (s.raise .notInitialised) := by
  unfold State.command; rw [h]

theorem execProcessBlockAt_ready {c : Cfg} {s : State} {r : Regs} {samples : List F32} (h : s.block = .ready r)
    (hl : samples.length = c.n) : execProcessBlockAt c samples s =
      .next (s.answer (processSamples c r samples).1 (processSamples c r samples).2) := by
  unfold execProcessBlockAt; rw [if_neg (by simpa using hl), h]

/-- A block of another length is refused, initialised or not. -/
theorem execProcessBlockAt_length {c : Cfg} {samples : List F32} (s : State) (hl : samples.length ≠ c.n) :
    execProcessBlockAt c samples s = .next (s.raise .badLength) := if_pos hl

theorem execProcessBlockAt_uninit {c : Cfg} {s : State} {samples : List F32} (h : s.block = .uninit)
    (hl : samples.length = c.n) : execProcessBlockAt c samples s = .next (s.raise .notInitialised) := by
  unfold execProcessBlockAt; rw [if_neg (by simpa using hl), h]

/-- The deployed machine is the instance at `cfg`. -/
theorem exec_eq_execAt (i : Instr) (s : State) : exec i s = execAt cfg i s := by cases i <;> rfl

theorem step_eq_stepAt (s : State) : step s = stepAt cfg s := by
  unfold step stepAt; rw [show exec = execAt cfg from funext fun i => funext fun s => exec_eq_execAt i s]; rfl

/-- What a command does to the registers of an initialised block of the instance built with `c`, and its output samples. -/
def effectAt (c : Cfg) (i : Instr) (r : Regs) : Regs × List F32 :=
  match i with
  | .init => (Regs.afterInit c, [])
  | .setCutoff value => (setCutoff c value r, [])
  | .setResonance value => (setResonance c value r, [])
  | .setEnvActive flag => (setEnvActive c flag r, [])
  | .setEnvDecay seconds => (setEnvDecay seconds r, [])
  | .setEnvSustain level => (setEnvSustain level r, [])
  | .trigAttack startCutoff peakCutoff attackTime now => (trigAttack startCutoff peakCutoff attackTime now r, [])
  | .trigRelease targetCutoff releaseTime now => (trigRelease targetCutoff releaseTime now r, [])
  | .advanceEnv currentTime => (envStep c currentTime r, [])
  | .processBlock samples => processSamples c r samples

/-- The same in the deployed instance. -/
abbrev effect (i : Instr) (r : Regs) : Regs × List F32 := effectAt cfg i r

/-- Everything a command can do on an initialised block. -/
theorem execAt_ready (c : Cfg) {s : State} {r : Regs} (i : Instr) (h : s.block = .ready r) :
    execAt c i s =
      if i.wellFormedAt c.n then .next (s.answer (effectAt c i r).1 (effectAt c i r).2) else .next (s.raise .badLength) := by
  cases i
  case init => rfl
  case processBlock samples =>
    by_cases hl : samples.length = c.n
    · have hw : (Instr.processBlock samples).wellFormedAt c.n = true := decide_eq_true hl
      rw [if_pos hw]; exact execProcessBlockAt_ready h hl
    · rw [if_neg (by simpa [Instr.wellFormedAt] using hl)]; exact execProcessBlockAt_length s hl
  all_goals exact State.command_ready _ h

theorem exec_ready {s : State} {r : Regs} (i : Instr) (h : s.block = .ready r) :
    exec i s = if i.wellFormed then .next (s.answer (effect i r).1 (effect i r).2) else .next (s.raise .badLength) :=
  (exec_eq_execAt i s).trans (execAt_ready cfg i h)

/-- Everything a command can do before the first `INIT`. -/
theorem execAt_uninit (c : Cfg) {s : State} (i : Instr) (h : s.block = .uninit) :
    execAt c i s = if i = .init then .next (s.answer (Regs.afterInit c) [])
      else if i.wellFormedAt c.n then .next (s.raise .notInitialised) else .next (s.raise .badLength) := by
  cases i
  case init => rfl
  case processBlock samples =>
    rw [if_neg (by simp)]
    by_cases hl : samples.length = c.n
    · have hw : (Instr.processBlock samples).wellFormedAt c.n = true := decide_eq_true hl
      rw [if_pos hw]; exact execProcessBlockAt_uninit h hl
    · rw [if_neg (by simpa [Instr.wellFormedAt] using hl)]; exact execProcessBlockAt_length s hl
  all_goals (rw [if_neg (by simp)]; exact State.command_uninit _ h)

theorem exec_uninit {s : State} (i : Instr) (h : s.block = .uninit) :
    exec i s = if i = .init then .next (s.answer (Regs.afterInit cfg) [])
      else if i.wellFormed then .next (s.raise .notInitialised) else .next (s.raise .badLength) :=
  (exec_eq_execAt i s).trans (execAt_uninit cfg i h)

/-- Everything the consumption of a packet can do. -/
theorem State.consume_cases {s t : State} {p : Packet} {run : Instr → State → Outcome} (h : s.consume p run = .next t) :
    (p = .incomplete ∧ t = s) ∨
      (∃ k rest, p = .malformed k rest ∧ t = State.raise { s with port := rest } k) ∨
      (∃ i rest, p = .command i rest ∧ run i { s with port := rest } = .next t) := by
  cases p with
  | incomplete => cases h; exact Or.inl ⟨rfl, rfl⟩
  | malformed k rest => cases h; exact Or.inr (Or.inl ⟨k, rest, rfl, rfl⟩)
  | command i rest => exact Or.inr (Or.inr ⟨i, rest, rfl, h⟩)

/-- Everything a step can do. -/
theorem step_cases {s t : State} (h : step s = .next t) :
    (decode s.port = .incomplete ∧ t = s) ∨
      (∃ k rest, decode s.port = .malformed k rest ∧ t = State.raise { s with port := rest } k) ∨
      (∃ i rest, decode s.port = .command i rest ∧ exec i { s with port := rest } = .next t) :=
  State.consume_cases h

/-- A relation between the registers that holds after `INIT`, and that every command's effect keeps, is kept by every step
of the instance built with `c`. -/
theorem stepAt_keeps {c : Cfg} {P : Regs → Prop} (hinit : P (Regs.afterInit c))
    (hstep : ∀ i r, P r → P (effectAt c i r).1) {s t : State} (hs : s.Holds P) (h : stepAt c s = .next t) : t.Holds P := by
  rcases State.consume_cases h with ⟨-, rfl⟩ | ⟨k, rest, -, rfl⟩ | ⟨i, rest, -, he⟩
  · exact hs
  · exact hs
  · cases hb : s.block with
    | uninit =>
      rw [execAt_uninit c i (by exact hb)] at he
      split at he
      · cases he; intro r hr; cases hr; exact hinit
      · split at he <;> (cases he; exact hs)
    | ready r =>
      rw [execAt_ready c (r := r) i (by exact hb)] at he
      split at he
      · cases he; intro r' hr; cases hr; exact hstep i r (hs r hb)
      · cases he; exact hs

/-- The sample loop leaves the control, coefficient and envelope registers alone and makes one sample per sample. -/
theorem sampleLoop_frame (c : Cfg) (r : Regs) (xs : List F32) :
    (sampleLoop c r xs).1.control = r.control ∧ (sampleLoop c r xs).1.coeffs = r.coeffs ∧
      (sampleLoop c r xs).1.env = r.env ∧ (sampleLoop c r xs).2.length = xs.length := by
  induction xs generalizing r with
  | nil => exact ⟨rfl, rfl, rfl, rfl⟩
  | cons x xs ih =>
    obtain ⟨h1, h2, h3, h4⟩ := ih (sampleNext c r x)
    exact ⟨h1, h2, h3, by simp [sampleLoop, h4]⟩

theorem processSamples_frame (c : Cfg) (r : Regs) (xs : List F32) :
    (processSamples c r xs).1.control = smooth c r.control ∧
      (processSamples c r xs).1.coeffs = (prologue c r).coeffs ∧
      (processSamples c r xs).1.env = r.env ∧ (processSamples c r xs).2.length = xs.length :=
  sampleLoop_frame c (prologue c r) xs

end Sys2Proof.Machine
end

