-- ==== Sys2Proof/Laws/PerInstr.lean ====
section
/-! SUPPORT. The family `Encoding`: what the encoder writes for each instruction, field by field, as the decoder's checks
read it (spec/30_encoding.md R80, R85, R90). -/

namespace Sys2Proof.Laws.Encoding

/-- At every block size the header's `len` field can hold: the header of a well-formed command has its opcode, an operand
count that is R85's and the number of operand words, no must-be-zero bit of `arg` set, and the operand words decode to the
command. -/
def Statement (i : Instr) : Prop :=
  ∀ n : Nat, n < 2 ^ 16 → i.wellFormedAt n = true →
    ∃ h, encode i = h :: encodeOperands i ∧
      headerOpcode h = i.opcode.code ∧
      Opcode.ofCode (headerOpcode h) = some i.opcode ∧
      headerLen h = (encodeOperands i).length ∧
      (encodeOperands i).length = i.opcode.len n ∧
      headerArg h &&& ~~~i.opcode.argMask = 0#8 ∧
      decodeOperands ((headerArg h).getLsbD 0) i.opcode (encodeOperands i) = i

theorem header_toNat (o a : BitVec 8) {l : Nat} (h : l < 2 ^ 16) :
    (header o a l).toNat = o.toNat + a.toNat * 2 ^ 8 + l * 2 ^ 16 := by
  have := o.isLt
  have := a.isLt
  unfold header; rw [BitVec.toNat_ofNat]; omega

theorem headerOpcode_header (o a : BitVec 8) {l : Nat} (h : l < 2 ^ 16) : headerOpcode (header o a l) = o := by
  have := o.isLt
  apply BitVec.eq_of_toNat_eq
  simp only [headerOpcode, BitVec.extractLsb'_toNat, header_toNat o a h, Nat.shiftRight_eq_div_pow]
  omega

theorem headerArg_header (o a : BitVec 8) {l : Nat} (h : l < 2 ^ 16) : headerArg (header o a l) = a := by
  have := o.isLt
  have := a.isLt
  apply BitVec.eq_of_toNat_eq
  simp only [headerArg, BitVec.extractLsb'_toNat, header_toNat o a h, Nat.shiftRight_eq_div_pow]
  omega

theorem headerLen_header (o a : BitVec 8) {l : Nat} (h : l < 2 ^ 16) : headerLen (header o a l) = l := by
  have := o.isLt
  have := a.isLt
  simp only [headerLen, BitVec.extractLsb'_toNat, header_toNat o a h, Nat.shiftRight_eq_div_pow]
  omega

@[simp] theorem F32.ofWord_toWord (v : F32) : F32.ofWord v.toWord = v := rfl

@[simp] theorem F64.ofWords_words (v : F64) : F64.ofWords v.lowWord v.highWord = v := by
  have := v.bits.isLt
  cases v with
  | mk b =>
    rw [F64.ofWords, F64.mk.injEq]
    apply BitVec.eq_of_toNat_eq
    simp only [F64.lowWord, F64.highWord, BitVec.extractLsb'_toNat, BitVec.toNat_ofNat, Nat.shiftRight_eq_div_pow]
    simp only at this
    omega

/-- The family's common proof: a command whose operand words number what R85 says, and decode back. -/
theorem of_length {i : Instr} (hlen : ∀ n, i.wellFormedAt n = true → (encodeOperands i).length = i.opcode.len n)
    (hlt : ∀ n, n < 2 ^ 16 → i.opcode.len n < 2 ^ 16) (hcode : Opcode.ofCode i.opcode.code = some i.opcode)
    (harg : encodeArg i &&& ~~~i.opcode.argMask = 0#8)
    (hops : decodeOperands ((encodeArg i).getLsbD 0) i.opcode (encodeOperands i) = i) : Statement i := by
  intro n hn hwf
  have hl := hlen n hwf
  have hlt : (encodeOperands i).length < 2 ^ 16 := hl ▸ hlt n hn
  refine ⟨header i.opcode.code (encodeArg i) (encodeOperands i).length, rfl, headerOpcode_header _ _ hlt, ?_,
    headerLen_header _ _ hlt, hl, ?_, ?_⟩
  · rw [headerOpcode_header _ _ hlt]; exact hcode
  · rw [headerArg_header _ _ hlt]; exact harg
  · rw [headerArg_header _ _ hlt]; exact hops

/-- The words of each operand list as the decoder reads them. -/
theorem operands_simp (v w : F32) (x y : F64) :
    operand32 [v.toWord] 1 = v ∧ operand64 [x.lowWord, x.highWord] 1 = x ∧
      operand32 [v.toWord, w.toWord, x.lowWord, x.highWord, y.lowWord, y.highWord] 1 = v ∧
      operand32 [v.toWord, w.toWord, x.lowWord, x.highWord, y.lowWord, y.highWord] 2 = w ∧
      operand64 [v.toWord, w.toWord, x.lowWord, x.highWord, y.lowWord, y.highWord] 3 = x ∧
      operand64 [v.toWord, w.toWord, x.lowWord, x.highWord, y.lowWord, y.highWord] 5 = y ∧
      operand32 [v.toWord, x.lowWord, x.highWord, y.lowWord, y.highWord] 1 = v ∧
      operand64 [v.toWord, x.lowWord, x.highWord, y.lowWord, y.highWord] 2 = x ∧
      operand64 [v.toWord, x.lowWord, x.highWord, y.lowWord, y.highWord] 4 = y := by
  simp [operand32, operand64, operandWord]

theorem init : Statement .init := of_length (fun _ _ => rfl) (fun _ _ => by simp [Opcode.len, Instr.opcode]) rfl (by decide) rfl
theorem setCutoff (value : F32) : Statement (.setCutoff value) :=
  of_length (fun _ _ => rfl) (fun _ _ => by simp [Opcode.len, Instr.opcode]) rfl (by simp [encodeArg]) rfl
theorem setResonance (value : F32) : Statement (.setResonance value) :=
  of_length (fun _ _ => rfl) (fun _ _ => by simp [Opcode.len, Instr.opcode]) rfl (by simp [encodeArg]) rfl
theorem setEnvActive (flag : Bool) : Statement (.setEnvActive flag) := by
  cases flag <;> exact of_length (fun _ _ => rfl) (fun _ _ => by simp [Opcode.len, Instr.opcode]) rfl (by decide) (by decide)
theorem setEnvDecay (seconds : F64) : Statement (.setEnvDecay seconds) :=
  of_length (fun _ _ => rfl) (fun _ _ => by simp [Opcode.len, Instr.opcode]) rfl (by simp [encodeArg])
    (by simp only [Instr.opcode, decodeOperands, encodeOperands, operands_simp .posZero .posZero seconds seconds])
theorem setEnvSustain (level : F32) : Statement (.setEnvSustain level) :=
  of_length (fun _ _ => rfl) (fun _ _ => by simp [Opcode.len, Instr.opcode]) rfl (by simp [encodeArg]) rfl
theorem trigAttack (startCutoff peakCutoff : F32) (attackTime now : F64) :
    Statement (.trigAttack startCutoff peakCutoff attackTime now) :=
  of_length (fun _ _ => rfl) (fun _ _ => by simp [Opcode.len, Instr.opcode]) rfl (by simp [encodeArg])
    (by simp only [Instr.opcode, decodeOperands, encodeOperands, operands_simp startCutoff peakCutoff attackTime now])
theorem trigRelease (targetCutoff : F32) (releaseTime now : F64) :
    Statement (.trigRelease targetCutoff releaseTime now) :=
  of_length (fun _ _ => rfl) (fun _ _ => by simp [Opcode.len, Instr.opcode]) rfl (by simp [encodeArg])
    (by simp only [Instr.opcode, decodeOperands, encodeOperands, operands_simp targetCutoff .posZero releaseTime now])
theorem advanceEnv (currentTime : F64) : Statement (.advanceEnv currentTime) :=
  of_length (fun _ _ => rfl) (fun _ _ => by simp [Opcode.len, Instr.opcode]) rfl (by simp [encodeArg])
    (by simp only [Instr.opcode, decodeOperands, encodeOperands, operands_simp .posZero .posZero currentTime currentTime])
theorem processBlock (samples : List F32) : Statement (.processBlock samples) :=
  of_length (fun _ hwf => (List.length_map _).trans (of_decide_eq_true hwf)) (fun _ hn => hn) rfl (by simp [encodeArg])
    (by simp [encodeOperands, Instr.opcode, decodeOperands, Function.comp_def])

end Sys2Proof.Laws.Encoding
end

