-- ==== Sys2Proof/Tests/Slice0.lean ====
section
/-! SUPPORT. Tests. Expected values come from the spec's worked examples and tables, named at each test. After them, for
every statement with hypotheses, a theorem that shows values that meet them all together. -/

open Sys2Proof Sys2Proof.Machine

namespace Sys2Proof.Tests

set_option maxRecDepth 4000
set_option Elab.async false

/-! ### Well-formedness: each check refuses an ill-formed term (spec/20_memory.md R70) -/

theorem test_wf_refuses_short_and_long_blocks :
    (Instr.processBlock (List.replicate 127 .posZero)).wellFormed = false ∧
      (Instr.processBlock (List.replicate 129 .posZero)).wellFormed = false ∧
      (Instr.processBlock (List.replicate 128 .posZero)).wellFormed = true := by decide +kernel

/-! ### Decoding: words of spec/30_encoding.md R96 and of spec/95_test_vectors.md V-ENC, written out -/

theorem test_decode_init :
    decode [0x00000000#32] =
      .command (.init) [] := by decide +kernel

theorem test_decode_set_cutoff :
    decode [0x00010001#32, 0x46EA6000#32] =
      .command (.setCutoff ⟨0x46EA6000#32⟩) [] := by decide +kernel

theorem test_decode_set_cutoff_nan :
    decode [0x00010001#32, 0x7FC00000#32] =
      .command (.setCutoff ⟨0x7FC00000#32⟩) [] := by decide +kernel

theorem test_decode_set_resonance :
    decode [0x00010002#32, 0x3DCCCCCD#32] =
      .command (.setResonance ⟨0x3DCCCCCD#32⟩) [] := by decide +kernel

theorem test_decode_set_env_active_1 :
    decode [0x00000103#32] =
      .command (.setEnvActive true) [] := by decide +kernel

theorem test_decode_set_env_active_0 :
    decode [0x00000003#32] =
      .command (.setEnvActive false) [] := by decide +kernel

theorem test_decode_set_env_decay :
    decode [0x00020004#32, 0x9999999A#32, 0x3FC99999#32] =
      .command (.setEnvDecay ⟨0x3FC999999999999A#64⟩) [] := by decide +kernel

theorem test_decode_set_env_sustain :
    decode [0x00010005#32, 0x3F333333#32] =
      .command (.setEnvSustain ⟨0x3F333333#32⟩) [] := by decide +kernel

theorem test_decode_trig_attack :
    decode [0x00060006#32, 0x43480000#32, 0x44FA0000#32, 0x9999999A#32, 0x3FB99999#32, 0x00000000#32, 0x00000000#32] =
      .command (.trigAttack ⟨0x43480000#32⟩ ⟨0x44FA0000#32⟩ ⟨0x3FB999999999999A#64⟩ ⟨0#64⟩) [] := by decide +kernel

theorem test_decode_trig_release :
    decode [0x00050007#32, 0x43960000#32, 0x00000000#32, 0x3FD00000#32, 0x00000000#32, 0x3FF00000#32] =
      .command (.trigRelease ⟨0x43960000#32⟩ ⟨0x3FD0000000000000#64⟩ ⟨0x3FF0000000000000#64⟩) [] := by decide +kernel

theorem test_decode_advance_env :
    decode [0x00020008#32, 0x33333333#32, 0x3FD33333#32] =
      .command (.advanceEnv ⟨0x3FD3333333333333#64⟩) [] := by decide +kernel

theorem test_decode_process_block :
    decode (0x00800009#32 :: 0x3F800000#32 :: List.replicate 127 0x00000000#32) =
      .command (.processBlock (⟨0x3F800000#32⟩ :: List.replicate 127 ⟨0#32⟩)) [] := by decide +kernel

theorem test_decode_illegal_opcode_takes_its_words :
    decode [0x000200FF#32, 0x11111111#32, 0x22222222#32, 0x00000000#32] =
      .malformed .illegalOpcode [0x00000000#32] := by decide +kernel

theorem test_decode_first_reserved_opcode :
    decode [0x0000000A#32] = .malformed .illegalOpcode [] := by decide +kernel

theorem test_decode_bad_lengths :
    decode [0x00000001#32] = .malformed .badLength [] ∧
      decode [0x00020001#32, 0x447A0000#32, 0x00000000#32] = .malformed .badLength [] ∧
      decode (0x007F0009#32 :: List.replicate 127 0#32) = .malformed .badLength [] ∧
      decode (0x00810009#32 :: List.replicate 129 0#32) = .malformed .badLength [] ∧
      decode [0x00010100#32, 0x00000000#32] = .malformed .badLength [] := by decide +kernel

theorem test_decode_bad_fields :
    decode [0x00000203#32] = .malformed .badField [] ∧
      decode [0x00010101#32, 0x447A0000#32] = .malformed .badField [] ∧
      decode [0x00000100#32] = .malformed .badField [] := by decide +kernel

/-- Each row of spec/opcode_table.json by the match of its header, operand words zero. -/
theorem test_table_words :
    ([0x00000000, 0x00010001, 0x00010002, 0x00000003, 0x00020004, 0x00010005, 0x00060006, 0x00050007, 0x00020008,
        0x00800009].map fun w => (decodeTableWord 32 w).map Instr.opcode) =
      [some .init, some .setCutoff, some .setResonance, some .setEnvActive, some .setEnvDecay, some .setEnvSustain,
        some .trigAttack, some .trigRelease, some .advanceEnv, some .processBlock] := by decide +kernel

/-! ### Arithmetic at the edges: values fixed by IEEE 754, by hand -/

/-- `2^24 + 1` lies between two binary32 numbers: the even one is taken; the least subnormal is kept. -/
theorem test_rounding_ties_to_even :
    F32.nearest false 16777217 1 = ⟨0x4B800000#32⟩ ∧ F32.nearest false 16777219 1 = ⟨0x4B800002#32⟩ ∧
      F32.mul ⟨0x00000002#32⟩ ⟨0x3F000000#32⟩ = ⟨0x00000001#32⟩ ∧
      F32.mul ⟨0x00000001#32⟩ ⟨0x3F000000#32⟩ = ⟨0x00000000#32⟩ := by decide +kernel

theorem test_opposite_numbers_sum_to_plus_zero :
    F64.add .one (F64.neg .one) = .posZero ∧ F64.add .negZero .negZero = .negZero ∧
      F64.div (F64.neg .one) .posZero = .negInf := by decide +kernel

/-! ### Micro-operations -/

/-- spec/41_dc_blocker.md R114. -/
theorem test_dc_blocker :
    let d1 := dcbNext cfg DcBlocker.zero ⟨0x3F800000#32⟩
    let d2 := dcbNext cfg d1 ⟨0x3F800000#32⟩
    let d3 := dcbNext cfg d2 ⟨0x3F800000#32⟩
    let d4 := dcbNext cfg d3 ⟨0x00000000#32⟩
    let d5 := dcbNext cfg d4 ⟨0xBF000000#32⟩
    [d1, d2, d3, d4, d5].map DcBlocker.prevOut =
        [⟨0x3F800000#32⟩, ⟨0x3F7EB852#32⟩, ⟨0x3F7D7247#32⟩, ⟨0xBC748880#32⟩, ⟨0xBF03CD3E#32⟩] ∧
      d5.prevIn = ⟨0xBF000000#32⟩ := by decide +kernel

/-- spec/43_parameter_smoother.md R135. -/
theorem test_smooth :
    let p0 : Control := ⟨⟨0x447A0000#32⟩, ⟨0x3DCCCCCD#32⟩, ⟨0x44FA0000#32⟩, ⟨0x3F000000#32⟩⟩
    let p1 := smooth cfg p0
    let p2 := smooth cfg p1
    let p3 := smooth cfg p2
    let p4 := smooth cfg p3
    [p1, p2, p3, p4].map (fun p => (p.liveCutoff.bits, p.liveRes.bits)) =
      [(0x44898000#32, 0x3E0F5C29#32), (0x4494C000#32, 0x3E343958#32), (0x449EE000#32, 0x3E5566CF#32),
        (0x44A7FCCD#32, 0x3E7342ED#32)] := by decide +kernel

/-- spec/42_coefficient_mapper.md R127 rows 1, 5 and spec/95_test_vectors.md V-COEF row 10: `acr` and `resQuad`. -/
theorem test_coef :
    (coef cfg ⟨0x447A0000#32⟩ ⟨0x3DCCCCCD#32⟩).acr = ⟨0x3FF09595B11DD68E#64⟩ ∧
      (coef cfg ⟨0x447A0000#32⟩ ⟨0x3DCCCCCD#32⟩).resQuad = ⟨0x3FDA88EF886B932A#64⟩ ∧
      (coef cfg ⟨0x46EA6000#32⟩ ⟨0x3F800000#32⟩).resQuad = ⟨0x401073083558A761#64⟩ ∧
      (coef cfg ⟨0xC47A0000#32⟩ ⟨0x3DCCCCCD#32⟩).acr = ⟨0x3FEE7F3D58C0054A#64⟩ := by decide +kernel

/-- spec/40_saturation_shaper.md R106, with the value of `TANH(1.0)` it prints. -/
theorem test_sat_of_one :
    sat { cfg with tanh := fun _ => ⟨0x3FE85EFAB514F394#64⟩ } .one = ⟨0x3FE88CE74BA61E38#64⟩ := by decide +kernel

theorem test_sat_of_minus_one :
    sat { cfg with tanh := fun _ => ⟨0xBFE85EFAB514F394#64⟩ } (F64.neg .one) = ⟨0xBFE80FA7EED60961#64⟩ := by decide +kernel

/-- spec/44_ladder_core.md R146: only the feedback and the subtracted terms carry a sub-step of memory, so with the identity for
`TANH` an impulse reaches stage 3 in the first sub-step, and half of it `delay[5]` (R145). -/
theorem test_substep_order :
    let f := substep { cfg with tanh := fun x => x } ⟨⟨0x40A52A0000000000#64⟩, .one, .posZero⟩ .one Filter.zero
    f.stage0 ≠ .posZero ∧ f.stage3 ≠ .posZero ∧ f.delay4 = f.stage3 ∧ f.delay5 = f.stage3.div .two := by decide +kernel

/-! ### Commands, one step each -/

/-- The registers after a step. -/
def regsOf (o : Outcome) : Option Regs :=
  match o with
  | .next t =>
    match t.block with
    | .ready r => some r
    | .uninit => none
  | .fault _ => none
  | .refused _ => none

/-- The response after a step. -/
def responseOf (o : Outcome) : List Word :=
  match o with
  | .next t => t.response
  | .fault _ => []
  | .refused _ => []

/-- A block with given registers and nothing on its ports. -/
def at_ (r : Regs) : State := { block := .ready r, port := [], response := [] }

/-- The registers after `INIT`. -/
abbrev r0 : Regs := Regs.afterInit cfg

/-- spec/10_state.md R52. -/
theorem test_init :
    (regsOf (exec .init State.powerOn)).map (fun r => (r.control, r.env.phase, r.env.active, r.env.cur, r.dc.prevOut)) =
      some (⟨⟨0x447A0000#32⟩, ⟨0x3DCCCCCD#32⟩, ⟨0x447A0000#32⟩, ⟨0x3DCCCCCD#32⟩⟩, .idle, false, ⟨0x447A0000#32⟩,
        ⟨0#32⟩) := by decide +kernel

/-- spec/46_control_commands.md R191, its example. -/
theorem test_set_cutoff :
    (regsOf (exec (.setCutoff ⟨0x44FA0000#32⟩) State.reset)).map
        (fun r => (r.env.manualCutoff.bits, r.control.targetCutoff.bits, r.control.liveCutoff.bits)) =
      some (0x44FA0000#32, 0x44FA0000#32, 0x447A0000#32) := by decide +kernel

/-- R191: while the envelope is active the target keeps its value. -/
theorem test_set_cutoff_while_active :
    (regsOf (exec (.setCutoff ⟨0x44480000#32⟩) (at_ { r0 with env := { r0.env with active := true } }))).map
        (fun r => (r.env.manualCutoff.bits, r.control.targetCutoff.bits)) =
      some (0x44480000#32, 0x447A0000#32) := by decide +kernel

/-- R192, its example. -/
theorem test_set_resonance :
    (regsOf (exec (.setResonance ⟨0x3F000000#32⟩) State.reset)).map
        (fun r => (r.control.targetRes.bits, r.control.liveRes.bits)) =
      some (0x3F000000#32, 0x3DCCCCCD#32) := by decide +kernel

/-- spec/45_envelope_generator.md R163, its example: mid-attack with the target at 2100 Hz. -/
theorem test_set_env_active_0 :
    (regsOf (exec (.setEnvActive false)
        (at_ { r0 with
          env := { r0.env with active := true, phase := .attack }
          control := { r0.control with targetCutoff := ⟨0x45034000#32⟩ } }))).map
        (fun r => (r.env.phase, r.env.active, r.control.targetCutoff.bits)) =
      some (.idle, false, 0x447A0000#32) := by decide +kernel

/-- R163: the flag alone, also in Release. -/
theorem test_set_env_active_1 :
    (regsOf (exec (.setEnvActive true) (at_ { r0 with env := { r0.env with phase := .release } }))).map
        (fun r => (r.env.phase, r.env.active, r.control.targetCutoff.bits)) =
      some (.release, true, 0x447A0000#32) := by decide +kernel

/-- R164, its example. -/
theorem test_set_env_decay :
    (regsOf (exec (.setEnvDecay ⟨0x3FC999999999999A#64⟩) State.reset)).map (fun r => (r.env.decay.bits, r.env.dur.bits)) =
      some (0x3FC999999999999A#64, 0#64) := by decide +kernel

/-- R165, its example. -/
theorem test_set_env_sustain :
    (regsOf (exec (.setEnvSustain ⟨0x3F333333#32⟩) State.reset)).map (fun r => r.env.sustain.bits) =
      some 0x3F333333#32 := by decide +kernel

/-- R161, its example; `envCur` and the target keep their values. -/
theorem test_trig_attack :
    (regsOf (exec (.trigAttack ⟨0x43480000#32⟩ ⟨0x44FA0000#32⟩ ⟨0x3FB999999999999A#64⟩ ⟨0#64⟩) State.reset)).map
        (fun r => ([r.env.start, r.env.target, r.env.cur, r.control.targetCutoff], [r.env.t0, r.env.dur], r.env.phase,
          r.env.active)) =
      some ([⟨0x43480000#32⟩, ⟨0x457A0000#32⟩, ⟨0x447A0000#32⟩, ⟨0x447A0000#32⟩], [⟨0#64⟩, ⟨0x3FB999999999999A#64⟩],
        .attack, true) := by decide +kernel

/-- R162, its example: `envCur` is 2500 Hz. -/
theorem test_trig_release :
    (regsOf (exec (.trigRelease ⟨0x43960000#32⟩ ⟨0x3FD0000000000000#64⟩ ⟨0x3FF0000000000000#64⟩)
        (at_ { r0 with env := { r0.env with cur := ⟨0x451C4000#32⟩ } }))).map
        (fun r => ([r.env.start, r.env.target], [r.env.t0, r.env.dur], r.env.phase, r.env.active)) =
      some ([⟨0x451C4000#32⟩, ⟨0x43960000#32⟩], [⟨0x3FF0000000000000#64⟩, ⟨0x3FD0000000000000#64⟩], .release, false) := by
  decide +kernel

/-- The registers of R178 after `SET_ENV_DECAY 0.2`, `SET_ENV_SUSTAIN 0.5` and `TRIG_ATTACK 200, 2000, 0.1, 0.0`. -/
abbrev inAttack : Regs :=
  { r0 with
    env := { r0.env with
      phase := .attack, active := true, start := ⟨0x43480000#32⟩, target := ⟨0x457A0000#32⟩
      t0 := ⟨0#64⟩, dur := ⟨0x3FB999999999999A#64⟩, decay := ⟨0x3FC999999999999A#64⟩, sustain := ⟨0x3F000000#32⟩ } }

/-- The registers of R178 in the Decay that begins at 0.1 s. -/
abbrev inDecay : Regs :=
  { inAttack with
    env := { inAttack.env with
      phase := .decay, start := ⟨0x457A0000#32⟩, target := ⟨0x451C4000#32⟩
      t0 := ⟨0x3FB999999999999A#64⟩, dur := ⟨0x3FC999999999999A#64⟩ } }

/-- The registers of R178 in the Release that begins at 1.0 s. -/
abbrev inRelease : Regs :=
  { inAttack with
    env := { inAttack.env with
      phase := .release, start := ⟨0x451C4000#32⟩, target := ⟨0x43960000#32⟩, cur := ⟨0x451C4000#32⟩
      t0 := ⟨0x3FF0000000000000#64⟩, dur := ⟨0x3FD0000000000000#64⟩ } }

/-- The registers of R178 in Held. -/
abbrev inHeld : Regs :=
  { inDecay with
    env := { inDecay.env with phase := .held, cur := ⟨0x451C4000#32⟩ }
    control := { inDecay.control with targetCutoff := ⟨0x451C4000#32⟩ } }

/-- R178: 0.05 s is half the attack; 0.1 s ends it, and the decay is set up from 4000 to 2500 Hz. -/
theorem test_advance_env_in_attack :
    (regsOf (exec (.advanceEnv ⟨0x3FA999999999999A#64⟩) (at_ inAttack))).map
        (fun r => (r.env.cur.bits, r.control.targetCutoff.bits, r.env.phase)) =
      some (0x45034000#32, 0x45034000#32, .attack) ∧
    (regsOf (exec (.advanceEnv ⟨0x3FB999999999999A#64⟩) (at_ inAttack))).map
        (fun r => ([r.env.cur, r.env.start, r.env.target], [r.env.t0, r.env.dur], r.env.phase)) =
      some ([⟨0x457A0000#32⟩, ⟨0x457A0000#32⟩, ⟨0x451C4000#32⟩], [⟨0x3FB999999999999A#64⟩, ⟨0x3FC999999999999A#64⟩],
        .decay) := by
  decide +kernel

/-- R178: 0.3 s rounds to a progress just below 1, so the decay is not over; at 0.35 s it is. -/
theorem test_advance_env_in_decay :
    (regsOf (exec (.advanceEnv ⟨0x3FD3333333333333#64⟩) (at_ inDecay))).map (fun r => (r.env.cur.bits, r.env.phase)) =
      some (0x451C4000#32, .decay) ∧
    (regsOf (exec (.advanceEnv ⟨0x3FD6666666666666#64⟩) (at_ inDecay))).map (fun r => (r.env.cur.bits, r.env.phase)) =
      some (0x451C4000#32, .held) := by decide +kernel

/-- R191: the block after `SET_CUTOFF 2000.0` starts with `liveCutoff` 1100 and the envelope untouched. -/
theorem test_process_block_prologue :
    (regsOf (exec (.processBlock (List.replicate 128 .posZero))
        (at_ { r0 with control := { r0.control with targetCutoff := ⟨0x44FA0000#32⟩ } }))).map
        (fun r => (r.control.liveCutoff.bits, r.control.targetCutoff.bits, r.env.cur.bits)) =
      some (0x44898000#32, 0x44FA0000#32, 0x447A0000#32) := by decide +kernel

/-- spec/95_test_vectors.md V-ENC: the last two rows, and a `PROCESS_BLOCK` of 127 samples. -/
theorem test_refused_before_init :
    responseOf (step { State.powerOn with port := [0x00010001#32, 0x447A0000#32] }) = [0x00000401#32] ∧
      responseOf (step { State.powerOn with port := [0x00000001#32] }) = [0x00000201#32] ∧
      responseOf (step { State.reset with port := 0x007F0009#32 :: List.replicate 127 0#32 }) = [0x00000201#32] := by
  decide +kernel

/-! ### Witnesses: values that meet all hypotheses of a statement together -/

abbrev pinf32 : F32 := ⟨0x7F800000#32⟩
abbrev minf32 : F32 := ⟨0xFF800000#32⟩
abbrev minusZero32 : F32 := ⟨0x80000000#32⟩
abbrev nan32 : F32 := ⟨0x7FC00000#32⟩
abbrev nan64 : F64 := ⟨0x7FF8000000000000#64⟩
abbrev max64 : F64 := ⟨0x7FEFFFFFFFFFFFFF#64⟩
abbrev samples0 : List F32 := List.replicate 128 .posZero

/-- An instance with blocks of one sample. -/
abbrev cfg1 : Cfg := { cfg with n := 1, n_pos := by decide }

/-- A value in the finite range, half way between two numbers. -/
theorem test_witness_RoundingIsNearestEven :
    binary32 ∈ [binary32, binary64] ∧ 0 < 1 ∧
      2 * (2 ^ 24 + 1) < (binary32.units (binary32.infMag - 1) + binary32.units binary32.infMag) * 1 ∧
      ((2 ^ 24 + 1 : Int) - binary32.units 16777216 * 1).natAbs = ((2 ^ 24 + 1 : Int) - binary32.units 16777217 * 1).natAbs :=
  ⟨by simp, by decide, by decide +kernel, by decide +kernel⟩

theorem test_witness_ArithmeticRoundsTheExactResult :
    F32.two.isFinite = true ∧ F32.posZero.isFinite = true ∧ max64.isFinite = true ∧ F64.one.isFinite = true ∧ F64.one.isZero = false :=
  by decide +kernel

/-- Each clause: infinities of both signs, zeros of both signs, finite numbers and NaNs, in both formats. -/
theorem test_witness_SpecialOperandsGiveDefaultResults :
    (pinf32.isInf = true ∧ minf32.isInf = true ∧ pinf32.neg? = false ∧ minf32.neg? = true ∧ pinf32.isNaN = false ∧
        nan32.isNaN = true ∧ F32.two.isFinite = true ∧ F32.two.isZero = false ∧ minusZero32.isFinite = true ∧
        minusZero32.isZero = true) ∧
      F64.posInf.isInf = true ∧ F64.negInf.isInf = true ∧ F64.posInf.neg? = false ∧ F64.negInf.neg? = true ∧
      F64.negInf.isNaN = false ∧ nan64.isNaN = true ∧ F64.one.isFinite = true ∧ F64.one.isZero = false ∧
      F64.negZero.isFinite = true ∧ F64.negZero.isZero = true := by decide +kernel

/-- R9: the least sum that overflows binary32 is an infinity; the two zeros are equal; an infinity is above every number. -/
theorem test_infinities_and_zeros :
    F32.add ⟨0x7F7FFFFF#32⟩ ⟨0x73000000#32⟩ = pinf32 ∧ F32.add ⟨0x7F7FFFFF#32⟩ ⟨0x72FFFFFF#32⟩ = ⟨0x7F7FFFFF#32⟩ ∧
      F32.le .posZero minusZero32 = true ∧ F32.lt minusZero32 .posZero = false ∧
      F32.lt ⟨0x7F7FFFFF#32⟩ pinf32 = true ∧ F64.lt .negInf max64 = true := by decide +kernel

theorem test_witness_WideningIsExact :
    F32.two.isFinite = true ∧ pinf32.isNaN = false ∧ nan32.isNaN = true ∧ max64.isFinite = true ∧
      F64.negInf.isInf = true ∧ nan64.isNaN = true :=
  by decide +kernel

/-- R9, `f32(v)`: a tie between two binary32 numbers goes to the even one, just above it to the other; half the least
subnormal goes to the zero of its sign; the midpoint past the greatest number overflows, and nothing below it does. -/
theorem test_narrow_rounds_to_nearest_even :
    F64.narrow ⟨0x3FF0000010000000#64⟩ = ⟨0x3F800000#32⟩ ∧ F64.narrow ⟨0x3FF0000010000001#64⟩ = ⟨0x3F800001#32⟩ ∧
      F64.narrow ⟨0x3FF0000030000000#64⟩ = ⟨0x3F800002#32⟩ ∧ F64.narrow ⟨0xB690000000000000#64⟩ = minusZero32 ∧
      F64.narrow ⟨0x47EFFFFFF0000000#64⟩ = pinf32 ∧ F64.narrow ⟨0x47EFFFFFEFFFFFFF#64⟩ = ⟨0x7F7FFFFF#32⟩ := by
  decide +kernel

theorem test_witness_WorkedEncodingsDecode :
    ((.init, [0x00000000#32]) : Instr × List Word) ∈ ([(.init, [0x00000000#32])] : List (Instr × List Word)) :=
  by decide +kernel

theorem test_witness_DecodeOfEncode :
    ∀ i ∈ [Instr.init, .setCutoff nan32, .setResonance nan32, .setEnvActive true, .setEnvDecay nan64, .setEnvSustain nan32,
      .trigAttack nan32 .two .one nan64, .trigRelease nan32 .one nan64, .advanceEnv .one, .processBlock samples0],
      i.wellFormed = true :=
  by decide +kernel

/-- Other block sizes, the least and the greatest of the field. -/
theorem test_witness_DecodeOfEncode_n :
    (Instr.processBlock [nan32]).wellFormedAt 1 = true ∧ (Instr.processBlock []).wellFormedAt 0 = true ∧ 65535 < 2 ^ 16 :=
  by decide +kernel

theorem test_witness_EncodeOfDecode :
    decode [0x00000103#32, 0x00000000#32] = .command (.setEnvActive true) [0x00000000#32] ∧
      decodeAt 1 [0x00010009#32, 0x3F800000#32] = .command (.processBlock [⟨0x3F800000#32⟩]) [] :=
  by decide +kernel

theorem test_witness_StepRunsTheDecodedInstruction :
    decode (State.reset.withFetchWord 32 0x00020008).port = .command (.advanceEnv .posZero) [] ∧
      decodeAt cfg1.n [0x00010009#32, 0x3F800000#32] = .command (.processBlock [⟨0x3F800000#32⟩]) [] :=
  by decide +kernel

/-- R7, R203: with `N = 1` a block of one sample runs, and a block of 128 samples has the wrong length. -/
theorem test_other_block_size :
    (responseOf (stepAt cfg1 { State.resetAt cfg1 with port := [0x00010009#32, 0x00000000#32] })).head? =
        some 0x00000000#32 ∧
      (responseOf (stepAt cfg1 { State.resetAt cfg1 with port := [0x00010009#32, 0x00000000#32] })).length = 2 ∧
      responseOf (stepAt cfg1 { State.resetAt cfg1 with port := 0x00800009#32 :: List.replicate 128 0#32 }) =
        [0x00000201#32] := by decide +kernel

/-- One packet for each branch, the boundary opcodes and lengths among them. -/
theorem test_witness_RefusalsInOrder :
    ∀ row ∈ ([(0x0000000A#32, [], 1), (0x00000109#32, [], 2), (0x00000009#32, [], 2), (0x00000203#32, [], 3),
        (0x00000103#32, [], 4), (0x00000000#32, [], 0)] : List (Word × List Word × Nat)),
      headerLen row.1 ≤ row.2.1.length ∧
        (if 10 ≤ (headerOpcode row.1).toNat then 1
        else if headerLen row.1 ≠ [0, 1, 1, 0, 2, 1, 6, 5, 2, 128].getD (headerOpcode row.1).toNat 0 then 2
        else if (if headerOpcode row.1 = 3#8 then headerArg row.1 &&& 0xFE#8 else headerArg row.1) ≠ 0#8 then 3
        else if State.powerOn.block = .uninit ∧ headerOpcode row.1 ≠ 0#8 then 4
        else 0) = row.2.2 := by decide +kernel

/-- The same through the hypotheses themselves: a port with a packet before the first `INIT`. -/
theorem test_witness_RefusalsInOrder_state :
    ({ State.powerOn with port := [0x00000103#32] } : State).port = 0x00000103#32 :: [] ∧
      headerLen 0x00000103#32 ≤ ([] : List Word).length := by decide +kernel

theorem test_witness_IncompletePacketWaits :
    State.reset.port = [] ∧
      ({ State.reset with port := [0x00010001#32] } : State).port = 0x00010001#32 :: [] ∧
      ([] : List Word).length < headerLen 0x00010001#32 :=
  by decide +kernel

theorem test_witness_ResponseForm :
    (decode [0x00000103#32] ≠ .incomplete ∧
        step { State.reset with port := [0x00000103#32] } =
          .next (State.answer { State.reset with port := [] } (setEnvActive cfg true r0) [])) ∧
      (decode [0x0000000A#32] ≠ .incomplete ∧
        step { State.reset with port := [0x0000000A#32] } = .next (State.raise { State.reset with port := [] } .illegalOpcode)) :=
  ⟨⟨by decide +kernel, rfl⟩, by decide +kernel, rfl⟩

theorem test_witness_OnlyInitLeavesUninit :
    (step { State.powerOn with port := [0x00000000#32] } = .next (State.answer { State.powerOn with port := [] } r0 []) ∧
        ({ State.powerOn with port := [0x00000000#32] } : State).block = .uninit) ∧
      step State.reset = .next State.reset ∧ State.reset.block = .ready r0 :=
  ⟨⟨rfl, rfl⟩, rfl, rfl⟩

theorem test_witness_SetCutoffResult :
    State.reset.block = .ready r0 ∧ (at_ inAttack).block = .ready inAttack :=
  ⟨rfl, rfl⟩

theorem test_witness_SetResonanceResult :
    State.reset.block = .ready r0 ∧ (at_ inAttack).block = .ready inAttack :=
  ⟨rfl, rfl⟩

theorem test_witness_SetEnvActiveResult :
    State.reset.block = .ready r0 ∧ (at_ inAttack).block = .ready inAttack :=
  ⟨rfl, rfl⟩

theorem test_witness_SetDecayAndSustainResult :
    State.reset.block = .ready r0 ∧ (at_ inAttack).block = .ready inAttack :=
  ⟨rfl, rfl⟩

theorem test_witness_TrigAttackResult :
    State.reset.block = .ready r0 ∧ (at_ inAttack).block = .ready inAttack :=
  ⟨rfl, rfl⟩

theorem test_witness_TrigReleaseResult :
    State.reset.block = .ready r0 ∧ (at_ inAttack).block = .ready inAttack :=
  ⟨rfl, rfl⟩

/-- The greatest peak that does not overflow, and the least that does. -/
theorem test_witness_PeakDoublingIsExactUnlessItOverflows :
    State.reset.block = .ready r0 ∧ (⟨0x7EFFFFFF#32⟩ : F32).isFinite = true ∧ (⟨0x7F000000#32⟩ : F32).isFinite = true :=
  ⟨rfl, by decide +kernel, by decide +kernel⟩

theorem test_witness_AdvanceIsANoOpInIdleAndHeld :
    (State.reset.block = .ready r0 ∧ r0.env.phase = .idle) ∧ (at_ inHeld).block = .ready inHeld ∧ inHeld.env.phase = .held :=
  ⟨⟨rfl, rfl⟩, rfl, rfl⟩

/-- 0.05 s, 0.3 s and 1.125 s lie inside the phases of R178; 0.1 s, 0.35 s and 2.0 s end them. -/
theorem test_witness_AdvanceInsideAPhase :
    ∀ row ∈ [(inAttack, (⟨0x3FA999999999999A#64⟩ : F64)), (inDecay, ⟨0x3FD3333333333333#64⟩), (inRelease, ⟨0x3FF2000000000000#64⟩)],
      (at_ row.1).block = .ready row.1 ∧
        (row.1.env.phase = .attack ∨ row.1.env.phase = .decay ∨ row.1.env.phase = .release) ∧
        F64.ge ((row.2.sub row.1.env.t0).div row.1.env.dur) ⟨0x3FF0000000000000#64⟩ = false := by
  intro row hr
  refine ⟨rfl, ?_⟩
  revert row
  decide +kernel

theorem test_witness_AdvanceCompletesAPhase :
    ∀ row ∈ [(inAttack, (⟨0x3FB999999999999A#64⟩ : F64)), (inDecay, ⟨0x3FD6666666666666#64⟩), (inRelease, .two)],
      (at_ row.1).block = .ready row.1 ∧
        (row.1.env.phase = .attack ∨ row.1.env.phase = .decay ∨ row.1.env.phase = .release) ∧
        F64.ge ((row.2.sub row.1.env.t0).div row.1.env.dur) ⟨0x3FF0000000000000#64⟩ = true := by
  intro row hr
  refine ⟨rfl, ?_⟩
  revert row
  decide +kernel

theorem test_witness_FinalSampleIsTheTarget :
    (at_ inAttack).block = .ready inAttack ∧
      inAttack.env.phase = .attack ∧ F64.ge ((F64.one.sub inAttack.env.t0).div inAttack.env.dur) ⟨0x3FF0000000000000#64⟩ = true ∧
      inAttack.env.start.isFinite = true ∧ inAttack.env.target.isFinite = true ∧
      (inAttack.env.target.widen.sub inAttack.env.start.widen).toUnits =
        inAttack.env.target.widen.toUnits - inAttack.env.start.widen.toUnits :=
  ⟨rfl, rfl, by decide +kernel, by decide +kernel, by decide +kernel, by decide +kernel⟩

/-- A rising ramp and a falling one. -/
theorem test_witness_EnvelopeIsMonotoneInTime :
    ∀ r ∈ [inAttack, inRelease],
      (at_ r).block = .ready r ∧ (r.env.phase = .attack ∨ r.env.phase = .decay ∨ r.env.phase = .release) ∧
        r.env.start.isFinite = true ∧ r.env.target.isFinite = true ∧ r.env.t0.isFinite = true ∧ r.env.dur.isFinite = true ∧
        F64.lt .posZero r.env.dur = true ∧ F64.one.isFinite = true ∧ F64.two.isFinite = true ∧
        F64.le r.env.t0 .one = true ∧ F64.le .one .two = true := by
  intro r hr
  refine ⟨rfl, ?_⟩
  revert r
  decide +kernel

theorem test_witness_EnvelopeIsMonotoneInTime_directions :
    F32.le inAttack.env.start inAttack.env.target = true ∧ F32.le inRelease.env.target inRelease.env.start = true := by
  decide +kernel

/-- The attack of R178 with a duration of zero. -/
abbrev noDuration : Regs := { inAttack with env := { inAttack.env with dur := ⟨0#64⟩ } }

theorem test_witness_ZeroDurationAtItsStartIsANaN :
    (at_ noDuration).block = .ready noDuration ∧ noDuration.env.phase = .attack ∧ noDuration.env.t0.isFinite = true ∧ noDuration.env.dur = ⟨0#64⟩ :=
  ⟨rfl, rfl, by decide +kernel, rfl⟩

/-- The least time after the start. -/
theorem test_witness_ZeroDurationAfterItsStartCompletes :
    (at_ noDuration).block = .ready noDuration ∧ noDuration.env.phase = .attack ∧ noDuration.env.t0.isFinite = true ∧
      (⟨1#64⟩ : F64).isFinite = true ∧ F64.lt noDuration.env.t0 ⟨1#64⟩ = true ∧ noDuration.env.dur = ⟨0#64⟩ :=
  ⟨rfl, rfl, by decide +kernel, by decide +kernel, by decide +kernel, rfl⟩

theorem test_witness_PhaseTransitionTable :
    (at_ inHeld).block = .ready inHeld ∧ (Instr.setEnvActive false).wellFormed = true ∧
      exec (.setEnvActive false) (at_ inHeld) = .next ((at_ inHeld).answer (setEnvActive cfg false inHeld) []) :=
  ⟨rfl, rfl, rfl⟩

theorem test_witness_SatFormula :
    ∃ base asymmetry a level freqScale harmonicBoost even third intermod : F64,
      base = cfg.tanh .one ∧ asymmetry = (if F64.one.gt ⟨0#64⟩ then ⟨0x3FF0000000000000#64⟩ else cfg.satAsymNeg) ∧
      a = F64.one.abs ∧ level = a.div (F64.one.add a) ∧ freqScale = F64.one.div (F64.one.add (F64.two.mul level)) ∧
      harmonicBoost = F64.one.add ((cfg.satHb.mul level).mul freqScale) ∧
      even = (((cfg.satEven.mul .one).mul level).mul freqScale).div (F64.one.add a) ∧
      third = ((cfg.satThird.mul .one).mul (level.mul level)).mul freqScale ∧
      intermod = ((cfg.satIm.mul .one).mul level).mul freqScale :=
  ⟨_, _, _, _, _, _, _, _, _, rfl, rfl, rfl, rfl, rfl, rfl, rfl, rfl, rfl⟩

theorem test_witness_SatIsFiniteOnFiniteArguments :
    max64.isFinite = true ∧ F64.negInf.isFinite = false ∧ nan64.isFinite = false :=
  by decide +kernel

theorem test_witness_DcBlockerFormula :
    ∃ y : F32, y = (F32.two.sub DcBlocker.zero.prevIn).add (F32.mul ⟨0x3F7EB852#32⟩ DcBlocker.zero.prevOut) :=
  ⟨_, rfl⟩

/-- An infinity followed by finite samples. -/
theorem test_witness_DcBlockerKeepsNonFinite :
    ∃ (d : Nat → DcBlocker) (x : Nat → F32), (∀ n, d (n + 1) = dcbNext cfg (d n) (x n)) ∧ (x 0).isFinite = false ∧
      (d 0).prevIn.isFinite = true ∧ (x 1).isFinite = true :=
  ⟨fun n => n.rec DcBlocker.zero (fun k d => dcbNext cfg d (if k = 0 then pinf32 else .two)),
    fun k => if k = 0 then pinf32 else .two, fun _ => rfl, by decide, by decide, by decide⟩

theorem test_witness_CoefFormula :
    ∃ fc0 fc fc2 fc3 fcr acr : F64,
      fc0 = F32.two.widen.div cfg.fs ∧ fc = (if fc0.gt cfg.fcMax then cfg.fcMax else fc0) ∧ fc2 = fc.mul fc ∧
      fc3 = fc2.mul fc ∧
      fcr = (((cfg.fcr3.mul fc3).add (cfg.fcr2.mul fc2)).sub ((F64.nearest false 6490 10000).mul fc)).add cfg.fcr0 ∧
      acr = ((cfg.acr2.mul fc2).add (cfg.acr1.mul fc)).add cfg.acr0 :=
  ⟨_, _, _, _, _, _, rfl, rfl, rfl, rfl, rfl, rfl⟩

theorem test_witness_CutoffClampHolds :
    pinf32.isNaN = false ∧ F32.le (F32.nearest false 19846 1) (F32.nearest false 19846 1) = true ∧
      F32.le (F32.nearest false 19846 1) pinf32 = true ∧ nan32.isNaN = true :=
  by decide +kernel

theorem test_witness_CoefOfZeroAndOfNaN :
    F32.posZero.isZero = true ∧ minusZero32.isZero = true ∧ nan32.isNaN = true :=
  by decide +kernel

theorem test_witness_TuneIsBoundedForNonNegativeCutoffs :
    F32.le .posZero .posZero = true ∧ F32.le .posZero ⟨0x80000000#32⟩ = true ∧ F32.le .posZero pinf32 = true :=
  by decide +kernel

/-- The steps of R135, upward and downward, and a live value that is the target. -/
theorem test_witness_SmoothingNeverOvershoots :
    ∀ row ∈ ([(⟨0x447A0000#32⟩, ⟨0x44FA0000#32⟩), (⟨0x44FA0000#32⟩, ⟨0x447A0000#32⟩), (⟨0x447A0000#32⟩, ⟨0x447A0000#32⟩)] :
        List (F32 × F32)),
      row.1.isFinite = true ∧ row.2.isFinite = true ∧ (row.2.sub row.1).isFinite = true ∧
        (F32.le row.1 row.2 = true ∨ F32.le row.2 row.1 = true) := by decide +kernel

/-- A NaN target met once, the targets after it 2.0. -/
theorem test_witness_SmoothingKeepsNaN :
    ∃ p : Nat → Control,
      (∀ n, (p (n + 1)).liveCutoff = (smooth cfg (p n)).liveCutoff ∧ (p (n + 1)).liveRes = (smooth cfg (p n)).liveRes) ∧
        (p 0).liveCutoff.isNaN = false ∧ (p 0).targetCutoff.isNaN = true ∧ (p 0).liveRes.isNaN = true :=
  ⟨fun n => n.rec ⟨.two, nan32, nan32, .two⟩ (fun _ q => { smooth cfg q with targetCutoff := .two }),
    fun _ => ⟨rfl, rfl⟩, by decide, by decide, by decide⟩

theorem test_witness_SubstepFormula :
    ∃ x n0 t0 n1 t1 n2 t2 n3 : F64,
      x = F64.one.sub (r0.coeffs.resQuad.mul Filter.zero.delay5) ∧
      n0 = Filter.zero.delay0.add (r0.coeffs.tune.mul ((sat cfg (x.mul cfg.thermal)).sub Filter.zero.stageTanh0)) ∧
      t0 = sat cfg (n0.mul cfg.thermal) ∧ n1 = Filter.zero.delay1.add (r0.coeffs.tune.mul (t0.sub Filter.zero.stageTanh1)) ∧
      t1 = sat cfg (n1.mul cfg.thermal) ∧ n2 = Filter.zero.delay2.add (r0.coeffs.tune.mul (t1.sub Filter.zero.stageTanh2)) ∧
      t2 = sat cfg (n2.mul cfg.thermal) ∧
      n3 = Filter.zero.delay3.add (r0.coeffs.tune.mul (t2.sub (sat cfg (Filter.zero.delay3.mul cfg.thermal)))) :=
  ⟨_, _, _, _, _, _, _, _, rfl, rfl, rfl, rfl, rfl, rfl, rfl, rfl⟩

theorem test_witness_ProcessBlockResult :
    State.reset.block = .ready r0 ∧ samples0.length = 128 :=
  ⟨rfl, rfl⟩

theorem test_witness_WrongBlockLengthIsRefused :
    (List.replicate 127 F32.posZero).length ≠ 128 ∧ (List.replicate 129 F32.posZero).length ≠ 128 ∧
      samples0.length ≠ cfg1.n :=
  by decide +kernel

theorem test_witness_SilenceGivesSilence :
    State.reset.block = State.reset.block :=
  rfl

/-- The registers after `INIT` with a NaN in the feedback tap. -/
abbrev nanTap : Regs := { r0 with filter := { r0.filter with delay5 := nan64 } }

theorem test_witness_NaNInTheFeedbackTapStays :
    (at_ nanTap).block = .ready nanTap ∧ samples0.length = 128 ∧ nanTap.filter.delay5.isNaN = true :=
  ⟨rfl, rfl, by decide +kernel⟩

theorem test_witness_InPlaceEqualsSeparateBuffers :
    (List.replicate 128 F32.two).length = samples0.length :=
  rfl

theorem runs_processBlock (xs : List F32) (h : xs.length = 128) : exec (.processBlock xs) State.reset =
    .next (State.reset.answer (processSamples cfg r0 xs).1 (processSamples cfg r0 xs).2) :=
  execProcessBlockAt_ready (c := cfg) (s := State.reset) (r := r0) (samples := xs) rfl h

/-- Two blocks that agree on all samples but the last. -/
theorem test_witness_OutputsDependOnNoLaterInput :
    samples0.length = 128 ∧ (samples0.set 127 .two).length = 128 ∧ samples0.take 127 = (samples0.set 127 .two).take 127 ∧
      exec (.processBlock samples0) State.reset =
        .next (State.reset.answer (processSamples cfg r0 samples0).1 (processSamples cfg r0 samples0).2) ∧
      exec (.processBlock (samples0.set 127 .two)) State.reset =
        .next (State.reset.answer (processSamples cfg r0 (samples0.set 127 .two)).1
          (processSamples cfg r0 (samples0.set 127 .two)).2) :=
  ⟨rfl, rfl, by decide +kernel, runs_processBlock samples0 rfl, runs_processBlock (samples0.set 127 .two) rfl⟩

theorem test_witness_CommandsWriteOnlyTheirRegisters :
    State.reset.block = .ready r0 ∧
      exec (.advanceEnv .one) State.reset = .next (State.reset.answer (envStep cfg .one r0) []) :=
  ⟨rfl, rfl⟩

theorem test_witness_RecomputationChangesNoCoefficient :
    State.reset.block = .ready r0 ∧ r0.CoeffsCurrent cfg ∧ Instr.setResonance .two ≠ .init ∧
      (Instr.setResonance .two).opcode ≠ .processBlock ∧
      exec (.setResonance .two) State.reset = .next (State.reset.answer (setResonance cfg .two r0) []) :=
  ⟨rfl, rfl, by decide, by decide, rfl⟩

theorem test_witness_AudioStateDoesNotReachControl :
    (at_ r0).block = .ready r0 ∧ (at_ nanTap).block = .ready nanTap ∧ r0.control = nanTap.control ∧
      r0.coeffs = nanTap.coeffs ∧ r0.env = nanTap.env ∧ (Instr.setResonance .two).opcode ≠ .processBlock ∧
      exec (.setResonance .two) (at_ r0) = .next ((at_ r0).answer (setResonance cfg .two r0) []) ∧
      exec (.setResonance .two) (at_ nanTap) = .next ((at_ nanTap).answer (setResonance cfg .two nanTap) []) :=
  ⟨rfl, rfl, rfl, rfl, rfl, by decide, rfl, rfl⟩

/-- Two states that differ in control, envelope and audio registers. -/
theorem test_witness_AudioStateDoesNotReachControl_response :
    (at_ inHeld).block = .ready inHeld ∧ (at_ nanTap).block = .ready nanTap ∧
      (Instr.setResonance .two).opcode ≠ .processBlock ∧
      exec (.setResonance .two) (at_ inHeld) = .next ((at_ inHeld).answer (setResonance cfg .two inHeld) []) ∧
      exec (.setResonance .two) (at_ nanTap) = .next ((at_ nanTap).answer (setResonance cfg .two nanTap) []) :=
  ⟨rfl, rfl, by decide, rfl, rfl⟩

/-- A filter whose stages all hold `v`, with its delays and its saturator caches. -/
abbrev evenFilter (v : F64) : Filter :=
  { stage0 := v, stage1 := v, stage2 := v, stage3 := v
    stageTanh0 := sat cfg (v.mul cfg.thermal)
    stageTanh1 := sat cfg (v.mul cfg.thermal)
    stageTanh2 := sat cfg (v.mul cfg.thermal)
    delay0 := v, delay1 := v, delay2 := v, delay3 := v, delay4 := v, delay5 := v }

theorem evenFilter_caches (v : F64) : (evenFilter v).CachesCurrent cfg := ⟨rfl, rfl, rfl⟩

theorem test_witness_StagesAndCachesAreKept :
    (at_ { r0 with filter := evenFilter .one }).Holds (fun r => r.filter.StageIsDelay ∧ r.filter.CachesCurrent cfg) ∧
      step (at_ { r0 with filter := evenFilter .one }) = .next (at_ { r0 with filter := evenFilter .one }) :=
  ⟨fun _ h => by cases h; exact ⟨⟨rfl, rfl, rfl, rfl, rfl⟩, evenFilter_caches _⟩, rfl⟩

theorem test_witness_CoefficientsStayCurrent :
    (State.reset.Holds (Regs.CoeffsCurrent cfg) ∧ step State.reset = .next State.reset) ∧
      (State.resetAt cfg1).Holds (Regs.CoeffsCurrent cfg1) ∧ stepAt cfg1 (State.resetAt cfg1) = .next (State.resetAt cfg1) :=
  ⟨⟨fun _ h => by cases h; rfl, rfl⟩, fun _ h => by cases h; rfl, rfl⟩

theorem test_witness_EnvelopeAndTargetStayConsistent :
    (at_ inHeld).Holds (fun r => r.InactiveIsIdleOrRelease ∧ r.ManualOwnsTarget ∧ r.HeldIsPropagated) ∧
      step (at_ inHeld) = .next (at_ inHeld) ∧ stepAt cfg1 (at_ inHeld) = .next (at_ inHeld) :=
  ⟨fun _ h => by cases h; exact ⟨nofun, nofun, fun _ => rfl⟩, rfl, rfl⟩

theorem test_witness_ResetMeetsTheInvariants :
    State.reset ∈ [State.reset, State.powerOn] ∧ State.powerOn ∈ [State.reset, State.powerOn] :=
  by simp

end Sys2Proof.Tests
end

section
/-! The decoder inverts the encoder, and answers a command for no other words (spec/30_encoding.md R80 to R91). -/

namespace Sys2Proof

/-- Everything the checks of R90 accept: the header's three fields are those of one row of R85. -/
theorem decodeBody_eq_ok_iff {n : Nat} {h : Word} {ws : List Word} {i : Instr} :
    decodeBody n h ws = .ok i ↔
      ∃ op, Opcode.ofCode (headerOpcode h) = some op ∧ headerLen h = op.len n ∧
        headerArg h &&& ~~~op.argMask = 0#8 ∧ decodeOperands ((headerArg h).getLsbD 0) op ws = i := by
  unfold decodeBody
  cases Opcode.ofCode (headerOpcode h) with
  | none => simp
  | some op =>
    by_cases hlen : headerLen h = op.len n
    · by_cases harg : headerArg h &&& ~~~op.argMask = 0#8 <;> simp [hlen, harg]
    · simp [hlen]

/-- Everything the decoder reads as a command: a header whose operand words have all arrived, and that the checks accept. -/
theorem decodeAt_eq_command_iff {n : Nat} {words rest : List Word} {i : Instr} :
    decodeAt n words = .command i rest ↔
      ∃ h ws, words = h :: ws ∧ headerLen h ≤ ws.length ∧
        decodeBody n h (ws.take (headerLen h)) = .ok i ∧ rest = ws.drop (headerLen h) := by
  cases words with
  | nil => simp [decodeAt]
  | cons h ws =>
    rw [decodeAt_cons]
    by_cases hlen : ws.length < headerLen h
    · simp [hlen]
    · cases hb : decodeBody n h (ws.take (headerLen h)) with
      | error k => simp [hlen, hb]
      | ok j => simp [hlen, hb, Nat.le_of_not_lt hlen, eq_comm]

/-- What the encoder writes, for every command. -/
theorem Laws.Encoding.statement (i : Instr) : Laws.Encoding.Statement i := by
  cases i with
  | init => exact Laws.Encoding.init
  | setCutoff value => exact Laws.Encoding.setCutoff value
  | setResonance value => exact Laws.Encoding.setResonance value
  | setEnvActive flag => exact Laws.Encoding.setEnvActive flag
  | setEnvDecay seconds => exact Laws.Encoding.setEnvDecay seconds
  | setEnvSustain level => exact Laws.Encoding.setEnvSustain level
  | trigAttack startCutoff peakCutoff attackTime now =>
    exact Laws.Encoding.trigAttack startCutoff peakCutoff attackTime now
  | trigRelease targetCutoff releaseTime now => exact Laws.Encoding.trigRelease targetCutoff releaseTime now
  | advanceEnv currentTime => exact Laws.Encoding.advanceEnv currentTime
  | processBlock samples => exact Laws.Encoding.processBlock samples

/-- The words of a well-formed command are read back as that command, and the words after them are left alone. -/
theorem decodeAt_encode {n : Nat} {i : Instr} (rest : List Word) (hn : n < 2 ^ 16) (hwf : i.wellFormedAt n = true) :
    decodeAt n (encode i ++ rest) = .command i rest := by
  obtain ⟨h, henc, -, hop, hlen, hrow, harg, hdec⟩ := Laws.Encoding.statement i n hn hwf
  refine decodeAt_eq_command_iff.mpr ⟨h, encodeOperands i ++ rest, by rw [henc, List.cons_append], ?_, ?_, ?_⟩
  · rw [hlen, List.length_append]; omega
  · rw [hlen, List.take_left]
    exact decodeBody_eq_ok_iff.mpr ⟨i.opcode, hop, hlen.trans hrow, harg, hdec⟩
  · rw [hlen, List.drop_left]

/-- Settles O7: the encoder's words pass every check of R90, at the deployed block size and at every other. -/
theorem decodeOfEncode : Obligations.DecodeOfEncode :=
  ⟨fun _ rest hwf => decodeAt_encode rest (by decide) hwf, fun _ _ rest hn hwf => decodeAt_encode rest hn hwf⟩

/-! ### From the words to the command and back -/

@[simp] theorem F32.toWord_ofWord (w : Word) : (F32.ofWord w).toWord = w := rfl

@[simp] theorem opcode_decodeOperands (flag : Bool) (op : Opcode) (ws : List Word) :
    (decodeOperands flag op ws).opcode = op := by cases op <;> rfl

/-- The operand words that R85 announces are the ones the decoded command is encoded with. -/
theorem encodeOperands_decodeOperands {n : Nat} (flag : Bool) {op : Opcode} {ws : List Word}
    (hlen : ws.length = op.len n) : encodeOperands (decodeOperands flag op ws) = ws := by
  cases op with
  | processBlock => simp [decodeOperands, encodeOperands, Function.comp_def]
  | init | setEnvActive => exact (List.eq_nil_of_length_eq_zero hlen).symm
  | setCutoff | setResonance | setEnvSustain =>
    obtain ⟨a, rfl⟩ := List.length_eq_one_iff.mp hlen
    rfl
  | setEnvDecay | advanceEnv =>
    obtain ⟨a, b, rfl⟩ := List.length_eq_two.mp hlen
    simp [decodeOperands, encodeOperands, operand64, operandWord]
  | trigAttack =>
    match ws, hlen with
    | [a, b, c, d, e, f], _ => simp [decodeOperands, encodeOperands, operand32, operand64, operandWord]
  | trigRelease =>
    match ws, hlen with
    | [a, b, c, d, e], _ => simp [decodeOperands, encodeOperands, operand32, operand64, operandWord]

/-- A byte with no bit but bit 0 is that bit. -/
theorem flag_of_masked_arg {a : BitVec 8} (h : a &&& ~~~0x01#8 = 0#8) :
    (if a.getLsbD 0 then 0x01#8 else 0x00#8) = a := by
  revert a; decide

/-- A byte with no bit set is zero. -/
theorem zero_of_masked_arg {a : BitVec 8} (h : a &&& ~~~0x00#8 = 0#8) : 0x00#8 = a := by
  revert a; decide

/-- An `arg` field whose must-be-zero bits are 0 is the one the decoded command is encoded with. -/
theorem encodeArg_decodeOperands {a : BitVec 8} {op : Opcode} (ws : List Word) (h : a &&& ~~~op.argMask = 0#8) :
    encodeArg (decodeOperands (a.getLsbD 0) op ws) = a := by
  cases op with
  | setEnvActive => exact flag_of_masked_arg h
  | _ => exact zero_of_masked_arg h

/-- A command read from as many words as R85 announces is well formed. -/
theorem wellFormedAt_decodeOperands {n : Nat} (flag : Bool) {op : Opcode} {ws : List Word}
    (hlen : ws.length = op.len n) : (decodeOperands flag op ws).wellFormedAt n = true := by
  cases op with
  | processBlock => exact decide_eq_true ((List.length_map _).trans hlen)
  | _ => rfl

/-- Words that decode to a command are that command's encoding and the words after it. -/
theorem wellFormedAt_and_eq_encode_of_decodeAt {n : Nat} {words rest : List Word} {i : Instr}
    (h : decodeAt n words = .command i rest) : i.wellFormedAt n = true ∧ words = encode i ++ rest := by
  obtain ⟨hd, ws, rfl, hle, hbody, rfl⟩ := decodeAt_eq_command_iff.mp h
  obtain ⟨op, hop, hlen, harg, rfl⟩ := decodeBody_eq_ok_iff.mp hbody
  have htake : (ws.take (headerLen hd)).length = headerLen hd := List.length_take_of_le hle
  have hrow : (ws.take (headerLen hd)).length = op.len n := htake.trans hlen
  refine ⟨wellFormedAt_decodeOperands _ hrow, ?_⟩
  rw [encode, opcode_decodeOperands, encodeArg_decodeOperands _ harg, encodeOperands_decodeOperands _ hrow, htake,
    ← Opcode.code_of_ofCode hop, header_fields, List.cons_append, List.take_append_drop]

/-- Settles O8: the header's fields and the operand words are rebuilt from the command. -/
theorem encodeOfDecode : Obligations.EncodeOfDecode :=
  ⟨fun _ _ _ h => wellFormedAt_and_eq_encode_of_decodeAt h, fun _ _ _ _ h => wellFormedAt_and_eq_encode_of_decodeAt h⟩

end Sys2Proof

namespace Sys2Proof.Machine

/-- A packet that decodes is run on the state whose port has lost the header and the words it announces. -/
theorem stepAt_of_command {c : Cfg} {s : State} {i : Instr} {rest : List Word}
    (h : decodeAt c.n s.port = .command i rest) :
    i.wellFormedAt c.n = true ∧ stepAt c s = execAt c i { s with port := rest } ∧
      ∃ h words, s.port = h :: words ∧ rest = words.drop (headerLen h) := by
  refine ⟨(wellFormedAt_and_eq_encode_of_decodeAt h).1, by rw [stepAt, h]; rfl, ?_⟩
  obtain ⟨hd, words, hport, -, -, hrest⟩ := decodeAt_eq_command_iff.mp h
  exact ⟨hd, words, hport, hrest⟩

/-- Settles O10: the deployed step is the step at `cfg`. -/
theorem stepRunsTheDecodedInstruction : Obligations.StepRunsTheDecodedInstruction := by
  refine ⟨fun s i rest h => ?_, fun _ _ _ _ h => stepAt_of_command h⟩
  rw [step_eq_stepAt, exec_eq_execAt]
  exact stepAt_of_command h

end Sys2Proof.Machine
end

section
/-! The control commands and the envelope generator, seen as what they do to the relations of Safety.lean. -/

namespace Sys2Proof.Machine

/-! ### The coefficients -/

/-- A command leaves the coefficients and the live values alone, or computes the coefficients from the live values. -/
theorem effectAt_coeffsCurrent {c : Cfg} (i : Instr) {r : Regs} (h : r.CoeffsCurrent c) :
    (effectAt c i r).1.CoeffsCurrent c := by
  cases i with
  | init | setCutoff _ | setResonance _ => rfl
  | setEnvDecay _ | setEnvSustain _ | trigAttack _ _ _ _ | trigRelease _ _ _ => exact h
  | setEnvActive flag =>
    cases flag with
    | false => rfl
    | true => exact h
  | advanceEnv currentTime =>
    show (envStep c currentTime r).CoeffsCurrent c
    unfold envStep envPropagate
    split
    · split
      · rfl
      · exact h
    · exact h
  | processBlock samples =>
    obtain ⟨hcontrol, hcoeffs, -, -⟩ := processSamples_frame c r samples
    show (processSamples c r samples).1.CoeffsCurrent c
    rw [Regs.CoeffsCurrent, hcoeffs, hcontrol, prologue_coeffs]

/-- Settles O58: `INIT` establishes the relation and every command keeps it. -/
theorem coefficientsStayCurrent : Obligations.CoefficientsStayCurrent := by
  have hstep (c : Cfg) (s t : State) (hs : s.Holds (Regs.CoeffsCurrent c)) (h : stepAt c s = .next t) :
      t.Holds (Regs.CoeffsCurrent c) :=
    stepAt_keeps (P := Regs.CoeffsCurrent c) rfl (fun i _ => effectAt_coeffsCurrent i) hs h
  exact ⟨fun s t hs h => hstep cfg s t hs ((step_eq_stepAt s).symm.trans h), hstep⟩

/-! ### The envelope -/

/-- The three relations of R47, R194 and R167; none of them is kept without the others. -/
abbrev Regs.EnvelopeConsistent (r : Regs) : Prop :=
  r.InactiveIsIdleOrRelease ∧ r.ManualOwnsTarget ∧ r.HeldIsPropagated

/-- An inactive envelope is not in Held. -/
theorem Regs.EnvelopeConsistent.active_of_held {r : Regs} (h : r.EnvelopeConsistent) (hp : r.env.phase = .held) :
    r.env.active = true := by
  obtain ⟨hphase, -, -⟩ := h
  by_contra ha
  rcases hphase (by simpa using ha) with h | h <;> simp [hp] at h

/-- The relations depend on the envelope's and the cutoff target's registers only. -/
theorem Regs.EnvelopeConsistent.of_eq {r r' : Regs} (h : r.EnvelopeConsistent) (henv : r'.env = r.env)
    (htarget : r'.control.targetCutoff = r.control.targetCutoff) : r'.EnvelopeConsistent := by
  unfold Regs.EnvelopeConsistent Regs.InactiveIsIdleOrRelease Regs.ManualOwnsTarget Regs.HeldIsPropagated
  rw [henv, htarget]
  exact h

@[simp] theorem envRun_active (e : Envelope) (t : F64) : (envRun e t).active = e.active := by
  unfold envRun envComplete
  cases envDone e t <;> cases e.phase <;> rfl

@[simp] theorem envRun_manualCutoff (e : Envelope) (t : F64) : (envRun e t).manualCutoff = e.manualCutoff := by
  unfold envRun envComplete
  cases envDone e t <;> cases e.phase <;> rfl

/-- A ramp in Release stays in Release or ends in Idle. -/
theorem envRun_phase_of_release {e : Envelope} (t : F64) (h : e.phase = .release) :
    (envRun e t).phase = .idle ∨ (envRun e t).phase = .release := by
  unfold envRun envComplete
  cases envDone e t <;> simp [h]

/-- `ENV_STEP` writes the target with `envCur` while the envelope is active; while it is inactive only a Release moves, and
the target is not written. -/
theorem envStep_consistent (c : Cfg) (t : F64) {r : Regs} (h : r.EnvelopeConsistent) :
    (envStep c t r).EnvelopeConsistent := by
  unfold envStep
  by_cases hm : r.env.phase.moves = true
  · rw [if_pos hm]
    unfold envPropagate
    cases ha : r.env.active with
    | true => rw [if_pos (by simp [ha])]; exact ⟨by simp [ha], by simp [ha], fun _ => rfl⟩
    | false =>
      rw [if_neg (by simp [ha])]
      obtain ⟨hphase, hmanual, -⟩ := h
      have hrel : r.env.phase = .release := by
        rcases hphase ha with hp | hp
        · simp [hp, Phase.moves] at hm
        · exact hp
      have hend := envRun_phase_of_release t hrel
      refine ⟨fun _ => hend, fun _ => ?_, fun hheld => ?_⟩
      · show r.control.targetCutoff = (envRun r.env t).manualCutoff
        rw [envRun_manualCutoff, hmanual ha]
      · rcases hend with hp | hp <;> exact absurd (hp.symm.trans hheld) (by decide)
  · rw [if_neg hm]; exact h

/-- Every command keeps the three relations. -/
theorem effectAt_consistent (c : Cfg) (i : Instr) {r : Regs} (h : r.EnvelopeConsistent) :
    (effectAt c i r).1.EnvelopeConsistent := by
  have ⟨hphase, hmanual, hheld⟩ := h
  cases i with
  | init => exact ⟨fun _ => .inl rfl, fun _ => rfl, nofun⟩
  | setCutoff value =>
    refine ⟨hphase, fun ha => ?_, fun hp => ?_⟩
    · exact if_neg (by simpa [effectAt, setCutoff] using ha)
    · exact (if_pos (h.active_of_held hp)).trans (hheld hp)
  | setResonance _ | setEnvDecay _ | setEnvSustain _ => exact h
  | setEnvActive flag =>
    cases flag with
    | false => exact ⟨fun _ => .inl rfl, fun _ => rfl, nofun⟩
    | true => exact ⟨nofun, nofun, hheld⟩
  | trigAttack _ _ _ _ => exact ⟨nofun, nofun, nofun⟩
  | trigRelease _ _ _ => exact ⟨fun _ => .inr rfl, hmanual, nofun⟩
  | advanceEnv currentTime => exact envStep_consistent c currentTime h
  | processBlock samples =>
    obtain ⟨hcontrol, -, henv, -⟩ := processSamples_frame c r samples
    exact h.of_eq henv ((congrArg Control.targetCutoff hcontrol).trans (smooth_targetCutoff c r.control))

/-- Settles O59: `INIT` establishes the relations and every command keeps them. -/
theorem envelopeAndTargetStayConsistent : Obligations.EnvelopeAndTargetStayConsistent := by
  have hstep (c : Cfg) (s t : State) (hs : s.Holds Regs.EnvelopeConsistent) (h : stepAt c s = .next t) :
      t.Holds Regs.EnvelopeConsistent :=
    stepAt_keeps ⟨fun _ => .inl rfl, fun _ => rfl, nofun⟩ (fun i _ => effectAt_consistent c i) hs h
  exact ⟨fun s t hs h => hstep cfg s t hs ((step_eq_stepAt s).symm.trans h), hstep⟩

/-! ### Reset and the length of a block -/

/-- `INIT` answers in every state, and what it answers does not depend on the state. -/
theorem execAt_init (c : Cfg) (s : State) : execAt c .init s = .next (s.answer (Regs.afterInit c) []) := rfl

/-- Settles O17: power-on has an empty port, so `INIT` leaves the reset state there. -/
theorem resetIsInitFromPowerOn : Obligations.ResetIsInitFromPowerOn := by
  refine ⟨rfl, ?_, fun s => ⟨s.answer (Regs.afterInit cfg) [], ?_, rfl, rfl, rfl⟩, fun c => execAt_init c _⟩
  · rw [exec_eq_execAt, execAt_init]; rfl
  · rw [exec_eq_execAt, execAt_init]

/-- A block of another length is refused before anything else is looked at (R206). -/
theorem execAt_processBlock_of_length_ne {c : Cfg} (s : State) {samples : List F32} (hl : samples.length ≠ c.n) :
    execAt c (.processBlock samples) s = .next { s with response := [0x00000201#32] } :=
  execProcessBlockAt_length s hl

/-- Settles O48: the deployed block size is 128. -/
theorem wrongBlockLengthIsRefused : Obligations.WrongBlockLengthIsRefused :=
  ⟨fun s _ hl => (exec_eq_execAt _ s).trans (execAt_processBlock_of_length_ne s hl),
    fun _ s _ hl => execAt_processBlock_of_length_ne s hl⟩

end Sys2Proof.Machine
end

section
/-! Rounding to nearest even and the finite results of the operations (spec/00_scope.md R9): O1 and O2. -/

namespace Sys2Proof

/-- Overflow: the tie between the greatest finite pattern, which is odd, and infinity goes to infinity. -/
theorem Format.roundMag_lt_infMag_iff (f : Format) (hp : 2 ≤ f.prec) (hpos : 0 < f.infMag) (heven : f.infMag % 2 = 0)
    (num : Nat) {den : Nat} (hd : 0 < den) :
    f.roundMag num den < f.infMag ↔ 2 * num < (f.units (f.infMag - 1) + f.units f.infMag) * den := by
  obtain ⟨m, hlo, hhi, hr⟩ := f.roundMag_spec hp num den hd
  have hmono {x y : Nat} (h : x ≤ y) : f.units x * den ≤ f.units y * den :=
    Nat.mul_le_mul_right den (f.units_strictMono.monotone h)
  rw [hr]
  simp only [Nat.add_mul]
  rcases Nat.lt_trichotomy (m + 1) f.infMag with hm | hm | hm
  · have h1 := hmono (show m + 1 ≤ f.infMag - 1 by omega)
    have h2 := hmono (show f.infMag - 1 ≤ f.infMag by omega)
    exact iff_of_true (by split <;> omega) (by omega)
  · have hpred : f.infMag - 1 = m := by omega
    rw [hpred, ← hm]
    split <;> omega
  · have h1 := hmono (show f.infMag ≤ m by omega)
    have h2 := hmono (show f.infMag - 1 ≤ f.infMag by omega)
    exact iff_of_false (by split <;> omega) (by omega)

/-- A finite rounded pattern is one of the two neighbours of the exact value, so no pattern is nearer, and the only other
pattern that can be equally near is the other neighbour; of the two the even one is chosen. -/
theorem Format.roundMag_nearest (f : Format) (hp : 2 ≤ f.prec) {num den : Nat} (hd : 0 < den)
    (hfin : f.roundMag num den < f.infMag) (m : Nat) :
    ((num : Int) - f.units (f.roundMag num den) * den).natAbs ≤ ((num : Int) - f.units m * den).natAbs ∧
      (((num : Int) - f.units (f.roundMag num den) * den).natAbs = ((num : Int) - f.units m * den).natAbs →
        m ≠ f.roundMag num den → f.roundMag num den % 2 = 0) := by
  obtain ⟨k, hlo, hhi, hr⟩ := f.roundMag_spec hp num den hd
  have hmono {x y : Nat} (h : x < y) : f.units x * den < f.units y * den :=
    Nat.mul_lt_mul_of_pos_right (f.units_strictMono h) hd
  have hcast (x : Nat) : (f.units x : Int) * den = ((f.units x * den : Nat) : Int) := (Nat.cast_mul _ _).symm
  have hround : f.roundMag num den = if (f.units k + f.units (k + 1)) * den < 2 * num ∨
      ((f.units k + f.units (k + 1)) * den = 2 * num ∧ k % 2 = 1) then k + 1 else k := by omega
  have hside : m < k ∧ f.units m * den < f.units k * den ∨ m = k ∨ m = k + 1 ∨
      k + 1 < m ∧ f.units (k + 1) * den < f.units m * den := by
    rcases Nat.lt_trichotomy m k with h | h | h
    · exact .inl ⟨h, hmono h⟩
    · exact .inr (.inl h)
    · rcases Nat.lt_or_eq_of_le h with h | h
      · exact .inr (.inr (.inr ⟨h, hmono h⟩))
      · exact .inr (.inr (.inl h.symm))
  rw [hround, hcast, hcast m]
  rw [Nat.add_mul] at *
  split <;> rcases hside with ⟨hm, hu⟩ | rfl | rfl | ⟨hm, hu⟩ <;> omega

/-- Settles O1: both formats have at least two bits of precision and an even pattern for infinity. -/
theorem roundingIsNearestEven : Obligations.RoundingIsNearestEven := by
  intro f hf num den hd
  have hformat : 2 ≤ f.prec ∧ 0 < f.infMag ∧ f.infMag % 2 = 0 := by
    rcases List.mem_pair.mp hf with rfl | rfl <;> decide
  obtain ⟨hp, hpos, heven⟩ := hformat
  exact ⟨f.roundMag_le_infMag num den, f.roundMag_lt_infMag_iff hp hpos heven num hd,
    fun hfin m _ => f.roundMag_nearest hp hd hfin m⟩

/-! ### The exact result rounded once -/

theorem Format.signedRound_natAbs (f : Format) (z : Int) (den : Nat) :
    (f.signedRound z den).natAbs = f.roundMag z.natAbs den := by
  unfold Format.signedRound; split <;> simp

/-- Rounding keeps the sign of what it does not round to zero. -/
theorem Format.signedRound_neg_iff (f : Format) {z : Int} {den : Nat} (h : f.roundMag z.natAbs den ≠ 0) :
    f.signedRound z den < 0 ↔ z < 0 := by
  unfold Format.signedRound; split <;> omega

theorem Format.units_eq_zero_iff (f : Format) {m : Nat} : f.units m = 0 ↔ m = 0 :=
  f.units_strictMono.injective.eq_iff' f.units_zero

theorem signedUnits_natAbs (s : Bool) (m : Nat) : (signedUnits s m).natAbs = m := by
  cases s <;> simp [signedUnits]

theorem F64.toUnits_natAbs (a : F64) : a.toUnits.natAbs = binary64.units a.mag := signedUnits_natAbs _ _

theorem F32.mag_of_key {a : F32} {z : Int} {den : Nat} (h : a.key = binary32.signedRound z den) :
    a.mag = binary32.roundMag z.natAbs den := by
  rw [← F32.key_natAbs, h, Format.signedRound_natAbs]

theorem F64.mag_of_key {a : F64} {z : Int} {den : Nat} (h : a.key = binary64.signedRound z den) :
    a.mag = binary64.roundMag z.natAbs den := by
  rw [← F64.key_natAbs, h, Format.signedRound_natAbs]

/-- Away from zero the sign bit says on which side of zero a datum stands. -/
theorem F32.neg?_iff_key {a : F32} (h : a.mag ≠ 0) : a.neg? = true ↔ a.key < 0 := by
  cases hs : a.neg? with
  | false => simp [F32.key, hs]
  | true => simpa [F32.key, hs] using Nat.pos_of_ne_zero h

theorem F64.neg?_iff_key {a : F64} (h : a.mag ≠ 0) : a.neg? = true ↔ a.key < 0 := by
  cases hs : a.neg? with
  | false => simp [F64.key, hs]
  | true => simpa [F64.key, hs] using Nat.pos_of_ne_zero h

theorem F32.neg?_of_key {a : F32} {z : Int} {den : Nat} (h : a.key = binary32.signedRound z den) (h0 : a.mag ≠ 0) :
    a.neg? = true ↔ z < 0 := by
  rw [F32.neg?_iff_key h0, h, Format.signedRound_neg_iff _ (F32.mag_of_key h ▸ h0)]

theorem F64.neg?_of_key {a : F64} {z : Int} {den : Nat} (h : a.key = binary64.signedRound z den) (h0 : a.mag ≠ 0) :
    a.neg? = true ↔ z < 0 := by
  rw [F64.neg?_iff_key h0, h, Format.signedRound_neg_iff _ (F64.mag_of_key h ▸ h0)]

/-- Division of a finite number by a finite number that is no zero. -/
theorem F64.div_finite {a b : F64} (ha : a.isFinite = true) (hb : b.isFinite = true) (hz : b.isZero = false) :
    (a.div b).mag = binary64.roundMag (a.toUnits.natAbs * 2 ^ binary64.unit) b.toUnits.natAbs ∧
      (a.div b).neg? = (a.neg? != b.neg?) := by
  have hu : binary64.units b.mag ≠ 0 := by simpa [Format.units_eq_zero_iff, F64.isZero] using hz
  rw [F64.toUnits_natAbs, F64.toUnits_natAbs]
  unfold F64.div
  rw [F64.val_finite ha, F64.val_finite hb]
  simp only [Val.div, hu, if_false]
  exact F64.finish_ratio _ _ _ _

/-- Settles O2: each operation's place in the numeric order is the rounding of the exact result. -/
theorem arithmeticRoundsTheExactResult : Obligations.ArithmeticRoundsTheExactResult := by
  refine ⟨fun a b ha hb => ?_, fun a b ha hb => ?_⟩
  · obtain ⟨-, hadd⟩ := F32.add_finite ha hb
    obtain ⟨-, hsub⟩ := F32.sub_finite ha hb
    obtain ⟨-, hmul, hsign⟩ := F32.mul_finite ha hb
    exact ⟨⟨_, _, rfl, rfl, F32.mag_of_key hadd, F32.neg?_of_key hadd⟩,
      ⟨_, _, rfl, rfl, F32.mag_of_key hsub, F32.neg?_of_key hsub⟩, F32.mag_of_key hmul, hsign⟩
  · obtain ⟨-, hadd⟩ := F64.add_finite ha hb
    obtain ⟨-, hsub⟩ := F64.sub_finite ha hb
    obtain ⟨-, hmul, hsign⟩ := F64.mul_finite ha hb
    exact ⟨⟨_, _, rfl, rfl, F64.mag_of_key hadd, F64.neg?_of_key hadd⟩,
      ⟨_, _, rfl, rfl, F64.mag_of_key hsub, F64.neg?_of_key hsub⟩, F64.mag_of_key hmul, hsign, F64.div_finite ha hb⟩

end Sys2Proof
end

section
/-! Data and exact results that are no finite numbers, and the conversions (spec/00_scope.md R9, spec/60_exceptions.md R208):
O3 and O4. The default results are those of log 14. -/

namespace Sys2Proof

/-! ### Infinities -/

theorem F32.eq_of_mag_of_neg? {a b : F32} (hm : a.mag = b.mag) (hs : a.neg? = b.neg?) : a = b := by
  obtain ⟨x⟩ := a
  obtain ⟨y⟩ := b
  simp only [F32.mag, F32.neg?, decide_eq_decide] at hm hs
  rw [F32.mk.injEq]
  bv_omega

theorem F64.eq_of_mag_of_neg? {a b : F64} (hm : a.mag = b.mag) (hs : a.neg? = b.neg?) : a = b := by
  obtain ⟨x⟩ := a
  obtain ⟨y⟩ := b
  simp only [F64.mag, F64.neg?, decide_eq_decide] at hm hs
  rw [F64.mk.injEq]
  bv_omega

theorem F32.isInf_iff {a : F32} : a.isInf = true ↔ a.mag = 0x7F800000 := decide_eq_true_iff

theorem F64.isInf_iff {a : F64} : a.isInf = true ↔ a.mag = 0x7FF0000000000000 := decide_eq_true_iff

theorem F32.not_nan_of_inf {a : F32} (h : a.isInf = true) : a.isNaN = false := by
  simp [F32.isNaN, F32.isInf_iff.mp h]

theorem F64.not_nan_of_inf {a : F64} (h : a.isInf = true) : a.isNaN = false := by
  simp [F64.isNaN, F64.isInf_iff.mp h]

theorem F32.val_inf {a : F32} (h : a.isInf = true) : a.val = .inf a.neg? := by
  simp [F32.val_eq, F32.isNaN, F32.isFinite, F32.isInf_iff.mp h]

theorem F64.val_inf {a : F64} (h : a.isInf = true) : a.val = .inf a.neg? := by
  simp [F64.val_eq, F64.isNaN, F64.isFinite, F64.isInf_iff.mp h]

/-- An infinite exact result gives the infinity of its sign. -/
theorem F32.isInf_finish (s : Bool) (c : Bool × BitVec 23) :
    (F32.finish (.inf s) c).isInf = true ∧ (F32.finish (.inf s) c).neg? = s :=
  ⟨F32.isInf_iff.mpr (F32.finish_inf s c).1, (F32.finish_inf s c).2⟩

theorem F64.isInf_finish (s : Bool) (c : Bool × BitVec 52) :
    (F64.finish (.inf s) c).isInf = true ∧ (F64.finish (.inf s) c).neg? = s :=
  ⟨F64.isInf_iff.mpr (F64.finish_inf s c).1, (F64.finish_inf s c).2⟩

theorem F32.finish_inf_eq {a : F32} {s : Bool} (h : a.isInf = true) (hs : s = a.neg?) (c : Bool × BitVec 23) :
    F32.finish (.inf s) c = a :=
  F32.eq_of_mag_of_neg? ((F32.finish_inf s c).1.trans (F32.isInf_iff.mp h).symm) ((F32.finish_inf s c).2.trans hs)

theorem F64.finish_inf_eq {a : F64} {s : Bool} (h : a.isInf = true) (hs : s = a.neg?) (c : Bool × BitVec 52) :
    F64.finish (.inf s) c = a :=
  F64.eq_of_mag_of_neg? ((F64.finish_inf s c).1.trans (F64.isInf_iff.mp h).symm) ((F64.finish_inf s c).2.trans hs)

theorem F32.isNaN_finish_invalid (c : Bool × BitVec 23) : (F32.finish .invalid c).isNaN = true :=
  (F32.isNaN_finish _ c).mpr rfl

theorem F64.isNaN_finish_invalid (c : Bool × BitVec 52) : (F64.finish .invalid c).isNaN = true :=
  (F64.isNaN_finish _ c).mpr rfl

/-! ### Operands that are infinities or NaN

Each lemma first in binary32, then in binary64, which also divides. -/

theorem Val.add_inf_inf_of_eq {s t : Bool} (h : s = t) : Val.add (.inf s) (.inf t) = .inf s := if_pos h

theorem Val.add_inf_inf_of_ne {s t : Bool} (h : s ≠ t) : Val.add (.inf s) (.inf t) = .invalid := if_neg h

/-- A NaN operand makes every result a NaN and every comparison false. -/
theorem F32.nan_operand {a b : F32} (h : a.isNaN = true ∨ b.isNaN = true) :
    (a.add b).isNaN = true ∧ (a.sub b).isNaN = true ∧ (a.mul b).isNaN = true ∧ a.lt b = false ∧ a.le b = false := by
  refine ⟨F32.add_nan h, F32.sub_nan h, F32.mul_nan h, ?_, ?_⟩
  · rcases h with h | h <;> simp [F32.lt, h]
  · rcases h with h | h <;> simp [F32.le, h]

/-- A NaN operand makes every result a NaN and every comparison false. -/
theorem F64.nan_operand {a b : F64} (h : a.isNaN = true ∨ b.isNaN = true) :
    (a.add b).isNaN = true ∧ (a.sub b).isNaN = true ∧ (a.mul b).isNaN = true ∧ a.lt b = false ∧ a.le b = false := by
  refine ⟨F64.add_nan h, F64.sub_nan h, F64.mul_nan h, ?_, ?_⟩
  · rcases h with h | h <;> simp [F64.lt, h]
  · rcases h with h | h <;> simp [F64.le, h]

/-- Infinities of equal sign have a sum and no difference, those of unlike sign the other way round. -/
theorem F32.inf_inf {a b : F32} (ha : a.isInf = true) (hb : b.isInf = true) :
    (a.neg? = b.neg? → a.add b = a ∧ (a.sub b).isNaN = true) ∧
      (a.neg? ≠ b.neg? → (a.add b).isNaN = true ∧ a.sub b = a) ∧
      (a.mul b).isInf = true ∧ (a.mul b).neg? = (a.neg? != b.neg?) := by
  unfold F32.add F32.sub F32.mul
  rw [F32.val_inf ha, F32.val_inf hb, Val.negate]
  refine ⟨fun h => ⟨?_, ?_⟩, fun h => ⟨?_, ?_⟩, F32.isInf_finish _ _⟩
  · rw [Val.add_inf_inf_of_eq h]; exact F32.finish_inf_eq ha rfl _
  · rw [Val.add_inf_inf_of_ne (by simp [h])]; exact F32.isNaN_finish_invalid _
  · rw [Val.add_inf_inf_of_ne h]; exact F32.isNaN_finish_invalid _
  · rw [Val.add_inf_inf_of_eq (Bool.eq_not.mpr h)]; exact F32.finish_inf_eq ha rfl _

/-- Infinities of equal sign have a sum and no difference, those of unlike sign the other way round. -/
theorem F64.inf_inf {a b : F64} (ha : a.isInf = true) (hb : b.isInf = true) :
    (a.neg? = b.neg? → a.add b = a ∧ (a.sub b).isNaN = true) ∧
      (a.neg? ≠ b.neg? → (a.add b).isNaN = true ∧ a.sub b = a) ∧
      (a.mul b).isInf = true ∧ (a.mul b).neg? = (a.neg? != b.neg?) := by
  unfold F64.add F64.sub F64.mul
  rw [F64.val_inf ha, F64.val_inf hb, Val.negate]
  refine ⟨fun h => ⟨?_, ?_⟩, fun h => ⟨?_, ?_⟩, F64.isInf_finish _ _⟩
  · rw [Val.add_inf_inf_of_eq h]; exact F64.finish_inf_eq ha rfl _
  · rw [Val.add_inf_inf_of_ne (by simp [h])]; exact F64.isNaN_finish_invalid _
  · rw [Val.add_inf_inf_of_ne h]; exact F64.isNaN_finish_invalid _
  · rw [Val.add_inf_inf_of_eq (Bool.eq_not.mpr h)]; exact F64.finish_inf_eq ha rfl _

/-- An infinity absorbs a finite number on either side of a sum or a difference. -/
theorem F32.inf_add_finite {a b : F32} (ha : a.isInf = true) (hb : b.isFinite = true) :
    a.add b = a ∧ b.add a = a ∧ a.sub b = a ∧ (b.sub a).isInf = true ∧ (b.sub a).neg? = (!a.neg?) := by
  unfold F32.add F32.sub
  rw [F32.val_inf ha, F32.val_finite hb]
  exact ⟨F32.finish_inf_eq ha rfl _, F32.finish_inf_eq ha rfl _, F32.finish_inf_eq ha rfl _, F32.isInf_finish _ _⟩

/-- An infinity absorbs a finite number on either side of a sum or a difference. -/
theorem F64.inf_add_finite {a b : F64} (ha : a.isInf = true) (hb : b.isFinite = true) :
    a.add b = a ∧ b.add a = a ∧ a.sub b = a ∧ (b.sub a).isInf = true ∧ (b.sub a).neg? = (!a.neg?) := by
  unfold F64.add F64.sub
  rw [F64.val_inf ha, F64.val_finite hb]
  exact ⟨F64.finish_inf_eq ha rfl _, F64.finish_inf_eq ha rfl _, F64.finish_inf_eq ha rfl _, F64.isInf_finish _ _⟩

theorem F32.units_eq_zero_iff {a : F32} : binary32.units a.mag = 0 ↔ a.isZero = true := by
  simp [Format.units_eq_zero_iff, F32.isZero]

theorem F32.finite_of_zero {a : F32} (h : a.isZero = true) : a.isFinite = true := by
  simp only [F32.isZero, F32.isFinite, decide_eq_true_eq] at *; omega

/-- An infinity times a zero, in either order. -/
theorem F32.inf_mul_zero {a b : F32} (ha : a.isInf = true) (hb : b.isZero = true) :
    (a.mul b).isNaN = true ∧ (b.mul a).isNaN = true := by
  unfold F32.mul
  rw [F32.val_inf ha, F32.val_finite (F32.finite_of_zero hb), F32.units_eq_zero_iff.mpr hb]
  exact ⟨F32.isNaN_finish_invalid _, F32.isNaN_finish_invalid _⟩

/-- An infinity times a finite number that is no zero, in either order. -/
theorem F32.inf_mul_finite {a b : F32} (ha : a.isInf = true) (hb : b.isFinite = true) (h0 : b.isZero = false) :
    (a.mul b).isInf = true ∧ (a.mul b).neg? = (a.neg? != b.neg?) ∧
      (b.mul a).isInf = true ∧ (b.mul a).neg? = (a.neg? != b.neg?) := by
  have hu : binary32.units b.mag ≠ 0 := by simp [F32.units_eq_zero_iff, h0]
  unfold F32.mul
  rw [F32.val_inf ha, F32.val_finite hb]
  simp only [Val.mul, hu, if_false]
  rw [bne_comm (a := b.neg?)]
  obtain ⟨hinf, hneg⟩ := F32.isInf_finish (a.neg? != b.neg?) (Config.nanChoice32 .mul a b)
  exact ⟨hinf, hneg, F32.isInf_finish _ _⟩

theorem F64.units_eq_zero_iff {a : F64} : binary64.units a.mag = 0 ↔ a.isZero = true := by
  simp [Format.units_eq_zero_iff, F64.isZero]

theorem F64.finite_of_zero {a : F64} (h : a.isZero = true) : a.isFinite = true := by
  simp only [F64.isZero, F64.isFinite, decide_eq_true_eq] at *; omega

/-- An infinity times a zero, in either order. -/
theorem F64.inf_mul_zero {a b : F64} (ha : a.isInf = true) (hb : b.isZero = true) :
    (a.mul b).isNaN = true ∧ (b.mul a).isNaN = true := by
  unfold F64.mul
  rw [F64.val_inf ha, F64.val_finite (F64.finite_of_zero hb), F64.units_eq_zero_iff.mpr hb]
  exact ⟨F64.isNaN_finish_invalid _, F64.isNaN_finish_invalid _⟩

/-- An infinity times a finite number that is no zero, in either order. -/
theorem F64.inf_mul_finite {a b : F64} (ha : a.isInf = true) (hb : b.isFinite = true) (h0 : b.isZero = false) :
    (a.mul b).isInf = true ∧ (a.mul b).neg? = (a.neg? != b.neg?) ∧
      (b.mul a).isInf = true ∧ (b.mul a).neg? = (a.neg? != b.neg?) := by
  have hu : binary64.units b.mag ≠ 0 := by simp [F64.units_eq_zero_iff, h0]
  unfold F64.mul
  rw [F64.val_inf ha, F64.val_finite hb]
  simp only [Val.mul, hu, if_false]
  rw [bne_comm (a := b.neg?)]
  obtain ⟨hinf, hneg⟩ := F64.isInf_finish (a.neg? != b.neg?) (Config.nanChoice64 .mul a b)
  exact ⟨hinf, hneg, F64.isInf_finish _ _⟩

/-- Finite data compare by value. -/
theorem F32.compare_finite {a b : F32} (ha : a.isFinite = true) (hb : b.isFinite = true) :
    (a.lt b = true ↔ a.toUnits < b.toUnits) ∧ (a.le b = true ↔ a.toUnits ≤ b.toUnits) := by
  have hna := F32.not_nan_of_finite ha
  have hnb := F32.not_nan_of_finite hb
  rw [F32.lt_iff, F32.le_iff, lt_iff_lt_of_le_iff_le (F32.toUnits_le_iff b a), F32.toUnits_le_iff a b]
  simp [hna, hnb]

/-- A datum at the place of an infinity is that infinity. -/
theorem F32.key_eq_inf_iff {a b : F32} (ha : a.isInf = true) : b.key = a.key ↔ b = a := by
  refine ⟨fun h => ?_, fun h => h ▸ rfl⟩
  have hm : b.mag = a.mag := by rw [← F32.key_natAbs, h, F32.key_natAbs]
  have ha0 : a.mag ≠ 0 := by rw [F32.isInf_iff.mp ha]; decide
  refine F32.eq_of_mag_of_neg? hm (Bool.eq_iff_iff.mpr ?_)
  rw [F32.neg?_iff_key ha0, F32.neg?_iff_key (hm ▸ ha0), h]

/-- The infinities are at the ends of the numeric order. -/
theorem F32.compare_inf {a b : F32} (ha : a.isInf = true) (hb : b.isNaN = false) :
    (a.neg? = true → a.le b = true ∧ b.lt a = false ∧ (a.lt b = true ↔ b ≠ a) ∧ (b.le a = true ↔ b = a)) ∧
      (a.neg? = false → b.le a = true ∧ a.lt b = false ∧ (b.lt a = true ↔ b ≠ a) ∧ (a.le b = true ↔ b = a)) := by
  have hna := F32.not_nan_of_inf ha
  have hmag := F32.isInf_iff.mp ha
  have hle := F32.key_le_inf hb
  rw [binary32_infMag] at hle
  simp only [← Bool.not_eq_true, F32.lt_iff, F32.le_iff, hna, hb, true_and, ne_eq, ← F32.key_eq_inf_iff ha]
  refine ⟨fun hs => ?_, fun hs => ?_⟩
  · have hkey : a.key = -0x7F800000 := by simp [F32.key, hs, hmag]
    omega
  · have hkey : a.key = 0x7F800000 := by simp [F32.key, hs, hmag]
    omega

/-- Finite data compare by value. -/
theorem F64.compare_finite {a b : F64} (ha : a.isFinite = true) (hb : b.isFinite = true) :
    (a.lt b = true ↔ a.toUnits < b.toUnits) ∧ (a.le b = true ↔ a.toUnits ≤ b.toUnits) := by
  have hna := F64.not_nan_of_finite ha
  have hnb := F64.not_nan_of_finite hb
  rw [F64.lt_iff, F64.le_iff, lt_iff_lt_of_le_iff_le (F64.toUnits_le_iff b a), F64.toUnits_le_iff a b]
  simp [hna, hnb]

/-- A datum at the place of an infinity is that infinity. -/
theorem F64.key_eq_inf_iff {a b : F64} (ha : a.isInf = true) : b.key = a.key ↔ b = a := by
  refine ⟨fun h => ?_, fun h => h ▸ rfl⟩
  have hm : b.mag = a.mag := by rw [← F64.key_natAbs, h, F64.key_natAbs]
  have ha0 : a.mag ≠ 0 := by rw [F64.isInf_iff.mp ha]; decide
  refine F64.eq_of_mag_of_neg? hm (Bool.eq_iff_iff.mpr ?_)
  rw [F64.neg?_iff_key ha0, F64.neg?_iff_key (hm ▸ ha0), h]

/-- The infinities are at the ends of the numeric order. -/
theorem F64.compare_inf {a b : F64} (ha : a.isInf = true) (hb : b.isNaN = false) :
    (a.neg? = true → a.le b = true ∧ b.lt a = false ∧ (a.lt b = true ↔ b ≠ a) ∧ (b.le a = true ↔ b = a)) ∧
      (a.neg? = false → b.le a = true ∧ a.lt b = false ∧ (b.lt a = true ↔ b ≠ a) ∧ (a.le b = true ↔ b = a)) := by
  have hna := F64.not_nan_of_inf ha
  have hmag := F64.isInf_iff.mp ha
  have hle := F64.key_le_inf hb
  rw [binary64_infMag] at hle
  simp only [← Bool.not_eq_true, F64.lt_iff, F64.le_iff, hna, hb, true_and, ne_eq, ← F64.key_eq_inf_iff ha]
  refine ⟨fun hs => ?_, fun hs => ?_⟩
  · have hkey : a.key = -0x7FF0000000000000 := by simp [F64.key, hs, hmag]
    omega
  · have hkey : a.key = 0x7FF0000000000000 := by simp [F64.key, hs, hmag]
    omega

/-! ### Division with an infinity or a zero -/

theorem F64.div_inf_inf {a b : F64} (ha : a.isInf = true) (hb : b.isInf = true) : (a.div b).isNaN = true := by
  unfold F64.div
  rw [F64.val_inf ha, F64.val_inf hb]
  exact F64.isNaN_finish_invalid _

theorem F64.div_inf_finite {a b : F64} (ha : a.isInf = true) (hb : b.isFinite = true) :
    (a.div b).isInf = true ∧ (a.div b).neg? = (a.neg? != b.neg?) := by
  unfold F64.div
  rw [F64.val_inf ha, F64.val_finite hb]
  exact F64.isInf_finish _ _

theorem F64.div_finite_inf {a b : F64} (ha : a.isFinite = true) (hb : b.isInf = true) :
    (a.div b).isZero = true ∧ (a.div b).neg? = (a.neg? != b.neg?) := by
  unfold F64.div
  rw [F64.val_finite ha, F64.val_inf hb]
  obtain ⟨hmag, hsign⟩ := F64.finish_ratio (a.neg? != b.neg?) 0 1 (Config.nanChoice64 .div a b)
  exact ⟨decide_eq_true (hmag.trans (Format.roundMag_zero _ binary64_prec _ one_pos)), hsign⟩

theorem F64.div_zero_zero {a b : F64} (ha : a.isZero = true) (hb : b.isZero = true) : (a.div b).isNaN = true := by
  unfold F64.div
  rw [F64.val_finite (F64.finite_of_zero ha), F64.val_finite (F64.finite_of_zero hb), F64.units_eq_zero_iff.mpr ha,
    F64.units_eq_zero_iff.mpr hb]
  exact F64.isNaN_finish_invalid _

theorem F64.div_finite_zero {a b : F64} (ha : a.isFinite = true) (h0 : a.isZero = false) (hb : b.isZero = true) :
    (a.div b).isInf = true ∧ (a.div b).neg? = (a.neg? != b.neg?) := by
  have hu : binary64.units a.mag ≠ 0 := by simp [F64.units_eq_zero_iff, h0]
  unfold F64.div
  rw [F64.val_finite ha, F64.val_finite (F64.finite_of_zero hb), F64.units_eq_zero_iff.mpr hb]
  simp only [Val.div, hu, if_true, if_false]
  exact F64.isInf_finish _ _

/-- Settles O3, one class of operands after the other. -/
theorem specialOperandsGiveDefaultResults : Obligations.SpecialOperandsGiveDefaultResults := by
  refine ⟨fun a b => ⟨F32.nan_operand, F32.inf_inf, fun ha hb => ?_, F32.compare_finite, F32.compare_inf⟩,
    fun a b => ⟨rfl, rfl, fun h => ?_, fun ha hb => ?_, fun ha hb => ?_, fun ha hb => ?_, F64.compare_finite,
      F64.compare_inf⟩⟩
  · obtain ⟨hadd, hadd', hsub, hinf, hneg⟩ := F32.inf_add_finite ha hb
    exact ⟨hadd, hadd', hsub, hinf, hneg, F32.inf_mul_zero ha, F32.inf_mul_finite ha hb⟩
  · obtain ⟨hadd, hsub, hmul, hlt, hle⟩ := F64.nan_operand h
    exact ⟨hadd, hsub, hmul, F64.div_nan h, hlt, hle⟩
  · obtain ⟨heq, hne, hinf, hneg⟩ := F64.inf_inf ha hb
    exact ⟨heq, hne, hinf, hneg, F64.div_inf_inf ha hb⟩
  · obtain ⟨hadd, hadd', hsub, hinf, hneg⟩ := F64.inf_add_finite ha hb
    obtain ⟨hdinf, hdneg⟩ := F64.div_inf_finite ha hb
    obtain ⟨hdzero, hdneg'⟩ := F64.div_finite_inf hb ha
    exact ⟨hadd, hadd', hsub, hinf, hneg, F64.inf_mul_zero ha, F64.inf_mul_finite ha hb, hdinf, hdneg, hdzero,
      hdneg'.trans bne_comm⟩
  · exact ⟨fun h0 => F64.div_zero_zero h0 hb, fun h0 => F64.div_finite_zero ha h0 hb⟩

/-! ### Conversions -/

theorem F32.isFinite_iff {v : F32} : v.isFinite = true ↔ v.mag < binary32.infMag := by
  rw [binary32_infMag]; exact decide_eq_true_iff

theorem F64.isFinite_iff {v : F64} : v.isFinite = true ↔ v.mag < binary64.infMag := by
  rw [binary64_infMag]; exact decide_eq_true_iff

/-- Every significand of the format at every exponent shift is some pattern's value. -/
theorem Format.exists_units_eq (f : Format) (hp : 1 ≤ f.prec) (shift : Nat) :
    ∀ n < 2 ^ f.prec, ∃ m, f.units m = n * 2 ^ shift := by
  have htwice : 2 * 2 ^ (f.prec - 1) = 2 ^ f.prec := by rw [← pow_succ', Nat.sub_add_cancel hp]
  induction shift with
  | zero => exact fun n hn => ⟨n, by simpa using f.units_shift 0 n (htwice ▸ hn) (.inl rfl)⟩
  | succ k ih =>
    intro n hn
    by_cases hsmall : 2 * n < 2 ^ f.prec
    · obtain ⟨m, hm⟩ := ih (2 * n) hsmall
      exact ⟨m, by rw [hm, pow_succ]; ring⟩
    · exact ⟨_, f.units_shift (k + 1) n (htwice ▸ hn) (.inr (by omega))⟩

/-- The value of a finite binary32 datum is the value of a finite binary64 one. -/
theorem exists_units_widened {m : Nat} (hm : m < binary32.infMag) :
    ∃ k < binary64.infMag, binary64.units k = binary32.units m * 2 ^ unitShift := by
  obtain ⟨shift, n, rfl, hn, hk⟩ := binary32.exists_shift m
  have hlt := binary32.units_strictMono hm
  rw [binary32.units_shift shift n hn hk] at hlt ⊢
  have hn' : n < 2 ^ binary64.prec := hn.trans (by decide)
  obtain ⟨k, hu⟩ := binary64.exists_units_eq (by decide) (shift + unitShift) n hn'
  have hshift : n * 2 ^ (shift + unitShift) = n * 2 ^ shift * 2 ^ unitShift := by rw [pow_add, Nat.mul_assoc]
  refine ⟨k, binary64.units_strictMono.lt_iff_lt.mp ?_, hu.trans hshift⟩
  calc binary64.units k = n * 2 ^ shift * 2 ^ unitShift := hu.trans hshift
    _ < binary32.units binary32.infMag * 2 ^ unitShift := Nat.mul_lt_mul_of_pos_right hlt (by positivity)
    _ ≤ binary64.units binary64.infMag := by decide +kernel

/-- Widening changes neither the sign nor the value. -/
theorem F32.widen_finite {v : F32} (h : v.isFinite = true) :
    v.widen.isFinite = true ∧ v.widen.neg? = v.neg? ∧
      binary64.units v.widen.mag = binary32.units v.mag * 2 ^ unitShift := by
  obtain ⟨k, hk, hu⟩ := exists_units_widened (F32.isFinite_iff.mp h)
  unfold F32.widen
  rw [F32.val_finite h, Val.scale, ← hu]
  obtain ⟨hmag, hsign⟩ := F64.finish_ratio v.neg? (binary64.units k) 1 (Config.nanChoiceWiden v)
  have hround := binary64.roundMag_units binary64_prec k 1 one_pos
  rw [Nat.mul_one, min_eq_left hk.le] at hround
  rw [hround] at hmag
  exact ⟨F64.isFinite_iff.mpr (hmag.trans_lt hk), hsign, by rw [hmag]⟩

theorem F32.toUnits_widen {v : F32} (h : v.isFinite = true) : v.widen.toUnits = v.toUnits * 2 ^ unitShift := by
  obtain ⟨-, hsign, hunits⟩ := F32.widen_finite h
  rw [F64.toUnits_eq, F32.toUnits_eq, hsign, hunits, ← Bool.bne_false v.neg?, signedUnits_mul, signedUnits_false,
    Bool.bne_false]
  push_cast; rfl

theorem F32.widen_inf {v : F32} (h : v.isInf = true) : v.widen.isInf = true ∧ v.widen.neg? = v.neg? := by
  unfold F32.widen
  rw [F32.val_inf h]
  exact F64.isInf_finish _ _

/-- A finite datum is rounded once, under its own sign. -/
theorem F64.narrow_finite_mag {v : F64} (h : v.isFinite = true) :
    v.narrow.mag = binary32.roundMag v.toUnits.natAbs (2 ^ unitShift) ∧ v.narrow.neg? = v.neg? := by
  unfold F64.narrow
  rw [F64.val_finite h, Val.scale, Nat.mul_one, F64.toUnits_natAbs]
  exact F32.finish_ratio _ _ _ _

theorem F64.narrow_inf {v : F64} (h : v.isInf = true) : v.narrow.isInf = true ∧ v.narrow.neg? = v.neg? := by
  unfold F64.narrow
  rw [F64.val_inf h]
  exact F32.isInf_finish _ _

/-- A datum that is no NaN is finite or an infinity. -/
theorem F32.finite_or_inf {v : F32} (h : v.isNaN = false) : v.isFinite = true ∨ v.isInf = true := by
  simp only [F32.isNaN, F32.isFinite, F32.isInf, decide_eq_false_iff_not, decide_eq_true_eq] at *; omega

/-- `f32` takes a widened datum back. -/
theorem F32.narrow_widen {v : F32} (h : v.isNaN = false) : v.widen.narrow = v := by
  rcases F32.finite_or_inf h with hf | hi
  · obtain ⟨hfin, hsign, hunits⟩ := F32.widen_finite hf
    obtain ⟨hmag, hsign'⟩ := F64.narrow_finite_mag hfin
    have hle : v.mag ≤ binary32.infMag := (F32.isFinite_iff.mp hf).le
    rw [F64.toUnits_natAbs, hunits, Format.roundMag_units _ binary32_prec _ _ (by positivity), min_eq_left hle] at hmag
    exact F32.eq_of_mag_of_neg? hmag (hsign'.trans hsign)
  · obtain ⟨hwide, hsign⟩ := F32.widen_inf hi
    obtain ⟨hnarrow, hsign'⟩ := F64.narrow_inf hwide
    exact F32.eq_of_mag_of_neg? ((F32.isInf_iff.mp hnarrow).trans (F32.isInf_iff.mp hi).symm) (hsign'.trans hsign)

/-- Settles O4: a widened value is representable in binary64, and is its own rounding back in binary32. -/
theorem wideningIsExact : Obligations.WideningIsExact := by
  refine ⟨rfl, fun v => ⟨fun h => ?_, F32.narrow_widen, F32.widen_nan⟩,
    fun v => ⟨F64.narrow_finite_mag, F64.narrow_inf, F64.narrow_nan⟩⟩
  obtain ⟨hfin, hsign, -⟩ := F32.widen_finite h
  exact ⟨hfin, hsign, F32.toUnits_widen h⟩

end Sys2Proof
end

section
/-! The reference values (spec/00_scope.md R7): O5. -/

namespace Sys2Proof.Machine

/-- Settles O5: each constant is rounded anew from its decimal; the machine at `cfg` is the deployed one by definition. -/
theorem referenceConstantsAreNearest : Obligations.ReferenceConstantsAreNearest := by
  refine ⟨rfl, rfl, ?_, ?_, ?_, ?_, ?_, ?_, ?_, ?_, ?_, ?_, ?_, ?_, ?_, ?_, ?_, ?_, ?_, ?_, ?_, ?_, rfl, fun _ => rfl,
    decode_eq, exec_eq_execAt, step_eq_stepAt, rfl⟩
  all_goals decide +kernel

end Sys2Proof.Machine
end

section
/-! The registers each command leaves as they were, and the relations between registers that every step keeps
(spec/10_state.md): O16, O20, O53 to O57 and O60. -/

namespace Sys2Proof.Machine

/-! ### The filter's stages and caches -/

/-- The relations of R24 and R22 that a filter keeps. -/
abbrev Filter.Consistent (c : Cfg) (f : Filter) : Prop := f.StageIsDelay ∧ f.CachesCurrent c

/-- A sub-step writes each stage with its delay, and each cache after the last write of its stage. -/
theorem substep_consistent (c : Cfg) (k : Coeffs) (u : F64) (f : Filter) : (substep c k u f).Consistent c :=
  ⟨⟨rfl, rfl, rfl, rfl, rfl⟩, rfl, rfl, rfl⟩

/-- Settles O57: the relations hold by the order of the writes of R141 to R145. -/
theorem substepMakesStagesDelays : Obligations.SubstepMakesStagesDelays := substep_consistent

/-- A sample ends with a sub-step. -/
theorem sampleNext_consistent (c : Cfg) (r : Regs) (x : F32) : (sampleNext c r x).filter.Consistent c :=
  substep_consistent c r.coeffs _ _

theorem sampleLoop_consistent {c : Cfg} {r : Regs} (h : r.filter.Consistent c) (xs : List F32) :
    (sampleLoop c r xs).1.filter.Consistent c := by
  induction xs generalizing r with
  | nil => exact h
  | cons x xs ih => exact ih (sampleNext_consistent c r x)

/-- The one law of `TANH` this needs is its value at `+0.0`; the rest of R101 is arithmetic on constants. -/
theorem sat_cfg_posZero : sat cfg .posZero = .posZero := by
  have htanh : cfg.tanh .posZero = .posZero := Config.math.tanhLaws.pos_zero
  unfold sat
  rw [htanh]
  decide +kernel

theorem Filter.zero_consistent : Filter.zero.Consistent cfg := by
  have hdrive : F64.posZero.mul cfg.thermal = .posZero := by decide +kernel
  have hcache : F64.posZero = sat cfg (F64.posZero.mul cfg.thermal) := by rw [hdrive, sat_cfg_posZero]
  exact ⟨⟨rfl, rfl, rfl, rfl, rfl⟩, hcache, hcache, hcache⟩

/-- Settles O60: every delay and cache is `+0.0` at reset, and before reset there is no register. -/
theorem resetMeetsTheInvariants : Obligations.ResetMeetsTheInvariants := by
  intro s hs
  simp only [List.mem_cons, List.not_mem_nil, or_false] at hs
  rcases hs with rfl | rfl
  · refine ⟨?_, ?_, ?_⟩ <;> rintro r ⟨⟩
    · exact Filter.zero_consistent
    · rfl
    · exact ⟨fun _ => .inl rfl, fun _ => rfl, nofun⟩
  · exact ⟨nofun, nofun, nofun⟩

/-! ### What the commands leave alone -/

@[simp] theorem envRun_decay (e : Envelope) (t : F64) : (envRun e t).decay = e.decay := by
  unfold envRun envComplete
  cases envDone e t <;> cases e.phase <;> rfl

@[simp] theorem envRun_sustain (e : Envelope) (t : F64) : (envRun e t).sustain = e.sustain := by
  unfold envRun envComplete
  cases envDone e t <;> cases e.phase <;> rfl

/-- Everything `ENV_STEP` can do: nothing, or the ramp alone, or the ramp and its propagation while the envelope is active. -/
theorem envStep_cases (c : Cfg) (t : F64) (r : Regs) :
    envStep c t r = r ∨
      (r.env.active = false ∧ envStep c t r = { r with env := envRun r.env t }) ∨
      (r.env.active = true ∧ envStep c t r = Regs.recompute c
        { r with
          env := envRun r.env t
          control := { r.control with targetCutoff := (envRun r.env t).cur } }) := by
  unfold envStep envPropagate
  cases r.env.phase.moves with
  | false => exact .inl rfl
  | true =>
    right
    cases ha : r.env.active with
    | false => exact .inl ⟨rfl, by simp [ha]⟩
    | true => exact .inr ⟨rfl, by simp [ha]⟩

/-- No command but `INIT` and `PROCESS_BLOCK` touches the filter, the DC blocker or a live value. -/
theorem effectAt_frame (c : Cfg) {i : Instr} (r : Regs) (hinit : i ≠ .init) (hblock : i.opcode ≠ .processBlock) :
    (effectAt c i r).1.filter = r.filter ∧ (effectAt c i r).1.dc = r.dc ∧
      (effectAt c i r).1.control.liveCutoff = r.control.liveCutoff ∧
      (effectAt c i r).1.control.liveRes = r.control.liveRes := by
  cases i with
  | init => exact absurd rfl hinit
  | processBlock samples => exact absurd rfl hblock
  | setEnvActive flag => cases flag <;> exact ⟨rfl, rfl, rfl, rfl⟩
  | advanceEnv t =>
    simp only [effectAt]
    rcases envStep_cases c t r with h | ⟨-, h⟩ | ⟨-, h⟩ <;> rw [h] <;> exact ⟨rfl, rfl, rfl, rfl⟩
  | _ => exact ⟨rfl, rfl, rfl, rfl⟩

/-- `INIT` and `PROCESS_BLOCK` leave the filter consistent by what they write, and no other command touches it. -/
theorem effectAt_filterConsistent (i : Instr) {r : Regs} (h : r.filter.Consistent cfg) :
    (effectAt cfg i r).1.filter.Consistent cfg := by
  have hkept (hinit : i ≠ .init) (hblock : i.opcode ≠ .processBlock) :
      (effectAt cfg i r).1.filter.Consistent cfg := by
    rw [(effectAt_frame cfg r hinit hblock).1]; exact h
  cases i with
  | init => exact Filter.zero_consistent
  | processBlock samples => exact sampleLoop_consistent (r := prologue cfg r) h samples
  | _ => exact hkept nofun nofun

/-- Settles O56: `INIT` establishes the relations and every command keeps them. -/
theorem stagesAndCachesAreKept : Obligations.StagesAndCachesAreKept := by
  intro s t hs h
  exact stepAt_keeps (P := fun r => r.filter.Consistent cfg) Filter.zero_consistent
    (fun i _ => effectAt_filterConsistent i) hs ((step_eq_stepAt s).symm.trans h)

/-! ### Commands on an initialised block -/

/-- A command on an initialised block has its effect and answers `OK`, but for a block of the wrong length. -/
theorem exec_next_cases {i : Instr} {s t : State} {r : Regs} (hb : s.block = .ready r) (h : exec i s = .next t) :
    t = s.answer (effect i r).1 (effect i r).2 ∨ ∃ samples, i = .processBlock samples ∧ t = s.raise .badLength := by
  rw [exec_ready i hb] at h
  split at h
  · cases h; exact .inl rfl
  · next hw =>
    cases h
    cases i with
    | processBlock samples => exact .inr ⟨samples, rfl, rfl⟩
    | _ => exact absurd rfl hw

theorem effectAt_samples (c : Cfg) {i : Instr} (r : Regs) (hblock : i.opcode ≠ .processBlock) :
    (effectAt c i r).2 = [] := by
  cases i with
  | processBlock samples => exact absurd rfl hblock
  | _ => rfl

/-- A command other than `PROCESS_BLOCK` is never refused on an initialised block, and returns no samples. -/
theorem exec_next_of_opcode_ne {i : Instr} {s t : State} {r : Regs} (hblock : i.opcode ≠ .processBlock)
    (hb : s.block = .ready r) (h : exec i s = .next t) : t = s.answer (effect i r).1 [] := by
  rcases exec_next_cases hb h with rfl | ⟨samples, rfl, -⟩
  · rw [effectAt_samples cfg r hblock]
  · exact absurd rfl hblock

/-- Settles O53, command by command; a refused block leaves every register alone. -/
theorem commandsWriteOnlyTheirRegisters : Obligations.CommandsWriteOnlyTheirRegisters := by
  intro i s t r hb h
  rcases exec_next_cases hb h with rfl | ⟨samples, rfl, rfl⟩
  · refine ⟨rfl, (effect i r).1, rfl, ?_⟩
    cases i with
    | init => trivial
    | setCutoff value =>
      refine ⟨rfl, rfl, rfl, rfl, fun ha => ?_⟩
      simp [effectAt, setCutoff, ha]
    | setResonance _ => exact ⟨rfl, rfl, rfl, rfl⟩
    | setEnvActive flag => cases flag <;> exact ⟨rfl, rfl, rfl, rfl⟩
    | setEnvDecay _ | setEnvSustain _ => rfl
    | trigAttack _ _ _ _ => exact ⟨rfl, rfl, rfl, rfl, rfl, rfl, rfl, rfl⟩
    | trigRelease _ _ _ => exact ⟨rfl, rfl, rfl, rfl, rfl, rfl, rfl, rfl, rfl⟩
    | advanceEnv time =>
      simp only [effectAt]
      rcases envStep_cases cfg time r with h | ⟨-, h⟩ | ⟨ha, h⟩ <;> rw [h]
      · exact ⟨rfl, rfl, rfl, rfl, rfl, rfl, rfl, fun _ => ⟨rfl, rfl⟩⟩
      · simp
      · simp [ha]
    | processBlock samples =>
      obtain ⟨hcontrol, -, henv, -⟩ := processSamples_frame cfg r samples
      refine ⟨henv, ?_⟩
      simp only [effectAt, hcontrol]
      rfl
  · exact ⟨rfl, r, hb, rfl, rfl⟩

/-- Settles O54: the coefficients stay those of the live values (O58's lemma), and no live value changes. -/
theorem recomputationChangesNoCoefficient : Obligations.RecomputationChangesNoCoefficient := by
  intro i s t r hb hcur hinit hblock h
  obtain rfl := exec_next_of_opcode_ne hblock hb h
  obtain ⟨-, -, hcutoff, hres⟩ := effectAt_frame cfg r hinit hblock
  refine ⟨_, rfl, ?_⟩
  calc (effect i r).1.coeffs
      = coef cfg (effect i r).1.control.liveCutoff (effect i r).1.control.liveRes := effectAt_coeffsCurrent i hcur
    _ = coef cfg r.control.liveCutoff r.control.liveRes := by rw [hcutoff, hres]
    _ = r.coeffs := hcur.symm

/-! ### The audio registers do not reach the control side -/

/-- Equal but for the filter and the DC blocker. -/
abbrev Regs.SameControlSide (r1 r2 : Regs) : Prop := r1.control = r2.control ∧ r1.coeffs = r2.coeffs ∧ r1.env = r2.env

/-- No command writes a control, coefficient or envelope register from the filter or the DC blocker. -/
theorem effectAt_sameControlSide (c : Cfg) (i : Instr) {r1 r2 : Regs} (h : r1.SameControlSide r2) :
    (effectAt c i r1).1.SameControlSide (effectAt c i r2).1 := by
  obtain ⟨filter1, dc1, control, coeffs, env⟩ := r1
  obtain ⟨filter2, dc2, _, _, _⟩ := r2
  obtain ⟨rfl, rfl, rfl⟩ := h
  cases i with
  | setEnvActive flag => cases flag <;> exact ⟨rfl, rfl, rfl⟩
  | advanceEnv t =>
    simp only [effectAt, envStep, envPropagate, envRun_active]
    cases env.phase.moves <;> cases env.active <;> exact ⟨rfl, rfl, rfl⟩
  | processBlock samples =>
    obtain ⟨hcontrol1, hcoeffs1, henv1, -⟩ := processSamples_frame c ⟨filter1, dc1, control, coeffs, env⟩ samples
    obtain ⟨hcontrol2, hcoeffs2, henv2, -⟩ := processSamples_frame c ⟨filter2, dc2, control, coeffs, env⟩ samples
    exact ⟨hcontrol1.trans hcontrol2.symm, hcoeffs1.trans hcoeffs2.symm, henv1.trans henv2.symm⟩
  | _ => exact ⟨rfl, rfl, rfl⟩

/-- Settles O55: a block is refused from both states or from neither, and every other command answers `OK` alone. -/
theorem audioStateDoesNotReachControl : Obligations.AudioStateDoesNotReachControl := by
  refine ⟨fun i s1 s2 t1 t2 r1 r2 hb1 hb2 hcontrol hcoeffs henv h1 h2 => ?_,
    fun i s1 s2 t1 t2 r1 r2 hb1 hb2 hblock h1 h2 => ?_⟩
  · rw [exec_ready i hb1] at h1
    rw [exec_ready i hb2] at h2
    by_cases hw : i.wellFormed = true
    · rw [if_pos hw] at h1 h2
      cases h1
      cases h2
      exact ⟨_, _, rfl, rfl, effectAt_sameControlSide cfg i ⟨hcontrol, hcoeffs, henv⟩⟩
    · rw [if_neg hw] at h1 h2
      cases h1
      cases h2
      exact ⟨r1, r2, hb1, hb2, hcontrol, hcoeffs, henv⟩
  · rw [exec_next_of_opcode_ne hblock hb1 h1, exec_next_of_opcode_ne hblock hb2 h2]
    rfl

/-! ### The reset table and the phase codes -/

/-- Settles O16: the table of R52, written out, is the model's reset state at the reference values. -/
theorem initWritesTheResetTable : Obligations.InitWritesTheResetTable := by
  intro s
  rw [exec_eq_execAt, execAt_init]
  rfl

/-- Settles O20, phase by phase. -/
theorem phaseCodes : Obligations.PhaseCodes := by
  refine ⟨rfl, rfl, rfl, rfl, rfl, fun p => ?_⟩
  cases p <;> decide

end Sys2Proof.Machine
end

section
/-! The words and bytes of the port, the form of the response and the sample loop over its buffers (spec/20_memory.md): O9, O13,
O51 and O52. -/

namespace Sys2Proof

/-! ### Words in little-endian bytes -/

/-- The four bytes of a word, each at its weight, are the word (R65). -/
theorem ofNat_bytes (w : Word) :
    BitVec.ofNat 32 ((w.extractLsb' 0 8).toNat + (w.extractLsb' 8 8).toNat * 2 ^ 8 +
      (w.extractLsb' 16 8).toNat * 2 ^ 16 + (w.extractLsb' 24 8).toNat * 2 ^ 24) = w := by
  have := w.isLt
  apply BitVec.eq_of_toNat_eq
  simp only [BitVec.extractLsb'_toNat, BitVec.toNat_ofNat, Nat.shiftRight_eq_div_pow]
  omega

/-- The first four bytes are read as one word, and the bytes after them for themselves. -/
theorem wordsOfBytes_bytesOfWord_append (w : Word) (bytes : List Byte) :
    wordsOfBytes (bytesOfWord w ++ bytes) = w :: wordsOfBytes bytes :=
  congrArg (· :: wordsOfBytes bytes) (ofNat_bytes w)

/-- Settles O9, by induction on the words. -/
theorem littleEndianBytesRoundTrip : Obligations.LittleEndianBytesRoundTrip := by
  refine ⟨fun words => ?_, by decide⟩
  induction words with
  | nil => rfl
  | cons w ws ih => rw [List.flatMap_cons, wordsOfBytes_bytesOfWord_append, ih]

end Sys2Proof

namespace Sys2Proof.Machine

/-! ### The response -/

/-- `PROCESS_BLOCK` makes one sample per sample of a block of the size the instance is built with, and no other command
makes one. -/
theorem effectAt_samples_length {c : Cfg} {i : Instr} (r : Regs) (hwf : i.wellFormedAt c.n = true) :
    (effectAt c i r).2.length = if i.opcode = .processBlock then c.n else 0 := by
  cases i with
  | processBlock samples =>
    obtain ⟨-, -, -, hlen⟩ := processSamples_frame c r samples
    exact hlen.trans (of_decide_eq_true hwf)
  | _ => rfl

/-- Every command, initialised or not, is refused or answers `OK` with as many samples as its opcode returns. -/
theorem exec_next_raise_or_answer {i : Instr} {s t : State} (h : exec i s = .next t) :
    (∃ k, t = s.raise k) ∨
      ∃ r samples, t = s.answer r samples ∧ samples.length = if i.opcode = .processBlock then 128 else 0 := by
  cases hb : s.block with
  | uninit =>
    rw [exec_uninit i hb] at h
    split at h
    · next hinit => cases h; subst hinit; exact .inr ⟨_, [], rfl, rfl⟩
    · split at h <;> cases h <;> exact .inl ⟨_, rfl⟩
  | ready r =>
    rw [exec_ready i hb] at h
    split at h
    · next hwf => cases h; exact .inr ⟨_, _, rfl, effectAt_samples_length r hwf⟩
    · cases h; exact .inl ⟨_, rfl⟩

/-- Settles O13: the packet that a step consumes is malformed, or its command is refused, or its command answers. -/
theorem responseForm : Obligations.ResponseForm := by
  refine ⟨fun k => by cases k <;> decide, fun s t hcomplete h => ?_⟩
  rcases step_cases h with ⟨hincomplete, -⟩ | ⟨k, rest, -, rfl⟩ | ⟨i, rest, hdec, he⟩
  · exact absurd hincomplete hcomplete
  · exact .inl ⟨k, rfl, rfl⟩
  · rcases exec_next_raise_or_answer he with ⟨k, rfl⟩ | ⟨r, samples, rfl, hlen⟩
    · exact .inl ⟨k, rfl, rfl⟩
    · exact .inr ⟨i, rest, samples.map (fun v => v.bits), hdec, rfl, (List.length_map _).trans hlen⟩

/-! ### The sample loop over buffers -/

/-- The sample that stands after `done` is read at the index `done.length`. -/
theorem memRead_append_cons (done : List F32) (x : F32) (xs : List F32) :
    memRead (done ++ x :: xs) done.length = x := by
  simp [memRead]

/-- A sample written after `done` joins it, and the samples after it stay. -/
theorem memWrite_append_cons (done : List F32) (v x : F32) (xs : List F32) :
    memWrite (done ++ x :: xs) done.length v = (done ++ [v]) ++ xs := by
  simp [memWrite]

/-- The loop with separate buffers, begun at the index where `done` ends, reads the samples `xs` after `read` and replaces the
values `old` after `done` by theirs. -/
theorem separateLoop_append (c : Cfg) (r : Regs) {read xs done old : List F32} (hdone : done.length = read.length)
    (hold : old.length = xs.length) :
    separateLoop c (read ++ xs) xs.length done.length r (done ++ old) =
      ((sampleLoop c r xs).1, done ++ (sampleLoop c r xs).2) := by
  induction xs generalizing r read done old with
  | nil => rw [List.eq_nil_of_length_eq_zero hold]; rfl
  | cons x xs ih =>
    obtain ⟨v, old, rfl⟩ := List.exists_cons_of_length_eq_add_one hold
    have hnext := ih (sampleNext c r x) (read := read ++ [x]) (done := done ++ [sampleOut c r x]) (old := old)
      (by simp [hdone]) (Nat.succ.inj hold)
    rw [List.length_cons, separateLoop, memWrite_append_cons, hdone, memRead_append_cons, ← hdone]
    simpa [sampleLoop] using hnext

/-- The loop in place, begun at the index where `done` ends, replaces the samples `xs` after `done` by theirs. -/
theorem inPlaceLoop_append (c : Cfg) (r : Regs) (xs done : List F32) :
    inPlaceLoop c xs.length done.length r (done ++ xs) = ((sampleLoop c r xs).1, done ++ (sampleLoop c r xs).2) := by
  induction xs generalizing r done with
  | nil => rfl
  | cons x xs ih =>
    rw [List.length_cons, inPlaceLoop, memWrite_append_cons, memRead_append_cons]
    simpa [sampleLoop] using ih (sampleNext c r x) (done ++ [sampleOut c r x])

/-- Settles O51: both loops begin with no sample done. -/
theorem inPlaceEqualsSeparateBuffers : Obligations.InPlaceEqualsSeparateBuffers := fun c r samples _ hlen =>
  ⟨separateLoop_append c r (read := []) (done := []) rfl hlen, inPlaceLoop_append c r samples []⟩

/-! ### An output sample and the input samples after it -/

/-- The first `k` output samples are those of the first `k` input samples. -/
theorem sampleLoop_take (c : Cfg) (r : Regs) (xs : List F32) (k : Nat) :
    (sampleLoop c r xs).2.take k = (sampleLoop c r (xs.take k)).2 := by
  induction xs generalizing r k with
  | nil => simp [sampleLoop]
  | cons x xs ih =>
    cases k with
    | zero => rfl
    | succ k => exact congrArg (sampleOut c r x :: ·) (ih (sampleNext c r x) k)

theorem processSamples_take_congr (c : Cfg) (r : Regs) {xs ys : List F32} {k : Nat} (h : xs.take k = ys.take k) :
    (processSamples c r xs).2.take k = (processSamples c r ys).2.take k := by
  unfold processSamples
  rw [sampleLoop_take, h, ← sampleLoop_take]

/-- Settles O52: both blocks are refused alike, or the answers' samples begin alike. -/
theorem outputsDependOnNoLaterInput : Obligations.OutputsDependOnNoLaterInput := by
  intro s xs ys k t u hxs hys htake ht hu
  rw [exec_eq_execAt] at ht hu
  cases hb : s.block with
  | uninit =>
    cases (execProcessBlockAt_uninit hb hxs).symm.trans ht
    cases (execProcessBlockAt_uninit hb hys).symm.trans hu
    rfl
  | ready r =>
    cases (execProcessBlockAt_ready hb hxs).symm.trans ht
    cases (execProcessBlockAt_ready hb hys).symm.trans hu
    rw [State.answer_response, State.answer_response, List.take_succ_cons, List.take_succ_cons, ← List.map_take,
      ← List.map_take, processSamples_take_congr cfg r htake]

end Sys2Proof.Machine
end

section
/-! The packets of the command port (spec/30_encoding.md R80 to R96): the refusals in their order, the wait for an incomplete
packet and the worked encodings: O6, O11 and O12. -/

namespace Sys2Proof

/-! ### The checks of R90, one by one -/

theorem decodeBody_illegalOpcode {n : Nat} {h : Word} {ws : List Word} (hop : Opcode.ofCode (headerOpcode h) = none) :
    decodeBody n h ws = .error .illegalOpcode := by
  simp [decodeBody, hop]

theorem decodeBody_badLength {n : Nat} {h : Word} {ws : List Word} {op : Opcode}
    (hop : Opcode.ofCode (headerOpcode h) = some op) (hlen : headerLen h ≠ op.len n) :
    decodeBody n h ws = .error .badLength := by
  simp [decodeBody, hop, hlen]

theorem decodeBody_badField {n : Nat} {h : Word} {ws : List Word} {op : Opcode}
    (hop : Opcode.ofCode (headerOpcode h) = some op) (hlen : headerLen h = op.len n)
    (harg : headerArg h &&& ~~~op.argMask ≠ 0#8) : decodeBody n h ws = .error .badField := by
  simp [decodeBody, hop, hlen, harg]

/-! ### The rows of R85 as numbers -/

/-- The `len` column of R85, indexed by the opcode's number, at the deployed block size. -/
theorem Opcode.lenTable_code (op : Opcode) : [0, 1, 1, 0, 2, 1, 6, 5, 2, 128].getD op.code.toNat 0 = op.len cfg.n := by
  cases op <;> rfl

/-- The must-be-zero bits of `arg`: all but `arg[0]` of `SET_ENV_ACTIVE`, and all of any other command's. -/
theorem Opcode.reservedArg_code (op : Opcode) (a : BitVec 8) :
    (if op.code = 3#8 then a &&& 0xFE#8 else a) = a &&& ~~~op.argMask := by
  cases op with
  | setEnvActive => rfl
  | _ => exact BitVec.and_allOnes.symm

theorem decodeOperands_eq_init_iff {flag : Bool} {op : Opcode} {ws : List Word} :
    decodeOperands flag op ws = .init ↔ op.code = 0#8 := by
  cases op <;> simp [decodeOperands, Opcode.code]

/-! ### The worked encodings -/

/-- A command whose words are `ws` is read back from them with nothing left over. -/
theorem decode_of_encode_eq {i : Instr} {ws : List Word} (henc : encode i = ws) (hwf : i.wellFormed = true) :
    decode ws = .command i [] := by
  rw [← henc, ← List.append_nil (encode i)]
  exact decodeAt_encode [] (by decide) hwf

/-- Settles O6: each row's words are computed from its decimals, and the decoder inverts the encoder. -/
theorem workedEncodingsDecode : Obligations.WorkedEncodingsDecode := by
  intro row hrow
  have hwords : encode row.1 = row.2 ∧ row.1.wellFormed = true := by
    revert row
    decide +kernel
  obtain ⟨henc, hwf⟩ := hwords
  exact ⟨henc, decode_of_encode_eq henc hwf⟩

end Sys2Proof

namespace Sys2Proof.Machine

/-! ### A step on an incomplete, a refused and an accepted packet -/

theorem step_of_incomplete {s : State} (h : decode s.port = .incomplete) : step s = .next s := by
  rw [step, h]
  rfl

/-- Settles O12: the decoder answers `incomplete` on both sides of the alternative. -/
theorem incompletePacketWaits : Obligations.IncompletePacketWaits := by
  intro s hwait
  apply step_of_incomplete
  rcases hwait with hport | ⟨h, words, hport, hlen⟩
  · rw [hport]
    rfl
  · rw [hport, decode_eq, decodeAt_cons, if_pos hlen]

/-- A complete packet that a check refuses is consumed whole, and nothing changes but the port and the response. -/
theorem step_of_decodeBody_error {s : State} {h : Word} {words : List Word} {k : Precondition}
    (hport : s.port = h :: words) (hlen : headerLen h ≤ words.length)
    (hbody : decodeBody cfg.n h (words.take (headerLen h)) = .error k) :
    step s = .next { s with port := words.drop (headerLen h), response := [statusErr k] } := by
  have hdec : decode s.port = .malformed k (words.drop (headerLen h)) := by
    rw [hport, decode_eq, decodeAt_cons, if_neg (Nat.not_lt.mpr hlen), hbody]
  rw [step, hdec]
  rfl

/-- A complete packet that the checks accept is run on the port less that packet. -/
theorem step_of_decodeBody_ok {s : State} {h : Word} {words : List Word} {i : Instr}
    (hport : s.port = h :: words) (hlen : headerLen h ≤ words.length)
    (hbody : decodeBody cfg.n h (words.take (headerLen h)) = .ok i) :
    i.wellFormed = true ∧ step s = exec i { s with port := words.drop (headerLen h) } := by
  obtain ⟨hwf, hstep, -⟩ :=
    stepAt_of_command (c := cfg) (decodeAt_eq_command_iff.mpr ⟨h, words, hport, hlen, hbody, rfl⟩)
  exact ⟨hwf, by rw [step_eq_stepAt, exec_eq_execAt, hstep]⟩

/-- R205: a well-formed command other than `INIT` is refused before the first `INIT`. -/
theorem exec_notInitialised {i : Instr} {s : State} (hwf : i.wellFormed = true) (hb : s.block = .uninit)
    (hinit : i ≠ .init) : exec i s = .next (s.raise .notInitialised) := by
  rw [exec_uninit i hb, if_neg hinit, if_pos hwf]

/-- A well-formed command answers `OK` when it is `INIT` or the block is initialised. -/
theorem exec_answers {i : Instr} {s : State} (hwf : i.wellFormed = true) (h : ¬(s.block = .uninit ∧ i ≠ .init)) :
    ∃ r samples, exec i s = .next (s.answer r samples) := by
  cases hb : s.block with
  | uninit =>
    have hinit : i = .init := not_not.mp fun hne => h ⟨hb, hne⟩
    exact ⟨_, _, by rw [exec_uninit i hb, if_pos hinit]⟩
  | ready r => exact ⟨_, _, by rw [exec_ready i hb, if_pos hwf]⟩

/-- A complete packet that the checks of R90 accept ends with `OK`, unless it precedes the first `INIT` and is no `INIT`. -/
theorem step_of_checks_passed {s : State} {h : Word} {words : List Word} {op : Opcode} (hport : s.port = h :: words)
    (hcomplete : headerLen h ≤ words.length) (hop : Opcode.ofCode (headerOpcode h) = some op)
    (hlen : headerLen h = op.len cfg.n) (harg : headerArg h &&& ~~~op.argMask = 0#8) :
    if s.block = .uninit ∧ op.code ≠ 0#8 then
      step s = .next { s with port := words.drop (headerLen h), response := [statusErr .notInitialised] }
    else
      ∃ r samples, step s = .next
        { block := .ready r, port := words.drop (headerLen h), response := statusOk :: samples } := by
  obtain ⟨hwf, hstep⟩ :=
    step_of_decodeBody_ok hport hcomplete (decodeBody_eq_ok_iff.mpr ⟨op, hop, hlen, harg, rfl⟩)
  rw [hstep]
  split
  · next hblock =>
    obtain ⟨hb, hcode⟩ := hblock
    exact exec_notInitialised hwf hb (mt decodeOperands_eq_init_iff.mp hcode)
  · next hblock =>
    obtain ⟨r, samples, hexec⟩ := exec_answers (s := { s with port := words.drop (headerLen h) }) hwf
      fun ⟨hb, hinit⟩ => hblock ⟨hb, mt decodeOperands_eq_init_iff.mpr hinit⟩
    exact ⟨r, samples.map (fun v : F32 => v.bits), hexec⟩

/-- Settles O11: the branches are the decoder's checks in their order, and then the check of initialisation. -/
theorem refusalsInOrder : Obligations.RefusalsInOrder := by
  intro s h words hport hcomplete
  cases hop : Opcode.ofCode (headerOpcode h) with
  | none =>
    rw [if_pos (Opcode.ofCode_none.mp hop)]
    exact step_of_decodeBody_error hport hcomplete (decodeBody_illegalOpcode hop)
  | some op =>
    have hlegal : ¬10 ≤ (headerOpcode h).toNat := by
      rw [← Opcode.ofCode_none, hop]
      exact Option.some_ne_none op
    rw [if_neg hlegal, Opcode.code_of_ofCode hop, op.lenTable_code, op.reservedArg_code]
    by_cases hlen : headerLen h = op.len cfg.n
    · by_cases harg : headerArg h &&& ~~~op.argMask = 0#8
      · rw [if_neg (not_not.mpr hlen), if_neg (not_not.mpr harg)]
        exact step_of_checks_passed hport hcomplete hop hlen harg
      · rw [if_neg (not_not.mpr hlen), if_pos harg]
        exact step_of_decodeBody_error hport hcomplete (decodeBody_badField hop hlen harg)
    · rw [if_pos hlen]
      exact step_of_decodeBody_error hport hcomplete (decodeBody_badLength hop hlen)

end Sys2Proof.Machine
end

section
/-! The saturation shaper (spec/40_saturation_shaper.md R101 to R105): O34, O35, O36 and O37. Magnitudes are bounded by the
operations' monotonicity in the magnitudes of their operands, against the same operations on constants. -/

namespace Sys2Proof

/-! ### Magnitudes through the operations -/

theorem F64.isFinite_of_mag_le {a b : F64} (h : a.mag ≤ b.mag) (hb : b.isFinite = true) : a.isFinite = true :=
  F64.isFinite_iff.mpr (h.trans_lt (F64.isFinite_iff.mp hb))

theorem binary64_units_mono {m n : Nat} (h : m ≤ n) : binary64.units m ≤ binary64.units n :=
  binary64.units_strictMono.monotone h

/-- A product grows in magnitude with its factors. -/
theorem F64.mag_mul_mono {a b p q : F64} (hp : p.isFinite = true) (hq : q.isFinite = true) (ha : a.mag ≤ p.mag)
    (hb : b.mag ≤ q.mag) : (a.mul b).mag ≤ (p.mul q).mag := by
  obtain ⟨-, hab, -⟩ := F64.mul_finite (F64.isFinite_of_mag_le ha hp) (F64.isFinite_of_mag_le hb hq)
  obtain ⟨-, hpq, -⟩ := F64.mul_finite hp hq
  rw [F64.mag_of_key hab, F64.mag_of_key hpq, Int.natAbs_mul, Int.natAbs_mul]
  simp only [F64.toUnits_natAbs]
  exact binary64.roundMag_mono binary64_prec (by positivity) (by positivity)
    (Nat.mul_le_mul_right _ (Nat.mul_le_mul (binary64_units_mono ha) (binary64_units_mono hb)))

theorem F64.add_of_nonneg {a b : F64} (ha : a.isFinite = true) (hb : b.isFinite = true) (hsa : a.neg? = false)
    (hsb : b.neg? = false) :
    (a.add b).mag = binary64.roundMag (binary64.units a.mag + binary64.units b.mag) 1 ∧ (a.add b).neg? = false := by
  unfold F64.add
  rw [F64.val_finite ha, F64.val_finite hb, hsa, hsb]
  exact F64.finish_ratio _ _ _ _

/-- A sum does not exceed in magnitude the sum of greater numbers that are not negative. -/
theorem F64.mag_add_mono {a b p q : F64} (hp : p.isFinite = true) (hq : q.isFinite = true) (hsp : p.neg? = false)
    (hsq : q.neg? = false) (ha : a.mag ≤ p.mag) (hb : b.mag ≤ q.mag) : (a.add b).mag ≤ (p.add q).mag := by
  obtain ⟨-, hab⟩ := F64.add_finite (F64.isFinite_of_mag_le ha hp) (F64.isFinite_of_mag_le hb hq)
  rw [F64.mag_of_key hab, (F64.add_of_nonneg hp hq hsp hsq).1]
  refine binary64.roundMag_mono binary64_prec one_pos one_pos (Nat.mul_le_mul_right _ ?_)
  calc (a.toUnits + b.toUnits).natAbs ≤ a.toUnits.natAbs + b.toUnits.natAbs := Int.natAbs_add_le _ _
    _ = binary64.units a.mag + binary64.units b.mag := by rw [F64.toUnits_natAbs, F64.toUnits_natAbs]
    _ ≤ binary64.units p.mag + binary64.units q.mag :=
      Nat.add_le_add (binary64_units_mono ha) (binary64_units_mono hb)

/-- A quotient grows in magnitude with its dividend and falls with its divisor. -/
theorem F64.mag_div_mono {a b p q : F64} (hp : p.isFinite = true) (hb : b.isFinite = true) (hq : q.isZero = false)
    (ha : a.mag ≤ p.mag) (hqb : q.mag ≤ b.mag) : (a.div b).mag ≤ (p.div q).mag := by
  have hq0 : 0 < q.mag := Nat.pos_of_ne_zero (by simpa [F64.isZero] using hq)
  have hb0 : b.isZero = false := decide_eq_false (by omega)
  rw [(F64.div_finite (F64.isFinite_of_mag_le ha hp) hb hb0).1,
    (F64.div_finite hp (F64.isFinite_of_mag_le hqb hb) hq).1]
  simp only [F64.toUnits_natAbs]
  have hpos : 0 < binary64.units q.mag := binary64.units_zero ▸ binary64.units_strictMono hq0
  refine binary64.roundMag_mono binary64_prec (hpos.trans_le (binary64_units_mono hqb)) hpos ?_
  exact Nat.mul_le_mul (Nat.mul_le_mul_right _ (binary64_units_mono ha)) (binary64_units_mono hqb)

theorem F64.mag_div_self {a : F64} (ha : a.isFinite = true) (h0 : a.isZero = false) : (a.div a).mag = F64.one.mag := by
  have hpos : 0 < binary64.units a.mag := Nat.pos_of_ne_zero (by simp [F64.units_eq_zero_iff, h0])
  have hone : 2 ^ binary64.unit = binary64.units F64.one.mag := by decide +kernel
  rw [(F64.div_finite ha ha h0).1, F64.toUnits_natAbs, Nat.mul_comm, hone,
    Format.roundMag_units _ binary64_prec _ _ hpos]
  decide +kernel

/-- A sum is monotone in its first summand. -/
theorem F64.key_add_mono {a b c : F64} (ha : a.isFinite = true) (hb : b.isFinite = true) (hc : c.isFinite = true)
    (h : a.key ≤ b.key) : (a.add c).key ≤ (b.add c).key := by
  obtain ⟨-, hac⟩ := F64.add_finite ha hc
  obtain ⟨-, hbc⟩ := F64.add_finite hb hc
  rw [hac, hbc]
  have := (F64.toUnits_le_iff a b).mpr h
  exact binary64.signedRound_mono binary64_prec one_pos one_pos (by omega)

theorem F64.mag_abs (a : F64) : a.abs.mag = a.mag := by
  simp only [F64.abs, F64.mag, BitVec.toNat_ofNat]; omega

theorem F64.isFinite_abs (a : F64) : a.abs.isFinite = a.isFinite := by rw [F64.isFinite, F64.isFinite, a.mag_abs]

theorem F64.neg?_abs (a : F64) : a.abs.neg? = false := by
  simp only [F64.abs, F64.mag, F64.neg?, BitVec.toNat_ofNat, decide_eq_false_iff_not]; omega

/-- A datum that is not finite is an infinity or a NaN. -/
theorem F64.inf_or_nan {a : F64} (h : a.isFinite = false) : a.isInf = true ∨ a.isNaN = true := by
  simp only [F64.isNaN, F64.isFinite, F64.isInf, decide_eq_false_iff_not, decide_eq_true_eq] at *; omega

def F64.greatestFinite : F64 := ⟨0x7FEFFFFFFFFFFFFF#64⟩

theorem F64.mag_le_greatestFinite {a : F64} (h : a.isFinite = true) : a.mag ≤ F64.greatestFinite.mag := by
  have hmag : F64.greatestFinite.mag = binary64.infMag - 1 := by decide
  have := F64.isFinite_iff.mp h
  omega

/-! ### `1.0 + a` -/

/-- One more than a number that is not negative: no overflow, since the greatest finite number absorbs 1. -/
theorem F64.one_add_bounds {a : F64} (ha : a.isFinite = true) (hs : a.neg? = false) :
    (F64.one.add a).isFinite = true ∧ (F64.one.add a).neg? = false ∧ F64.one.mag ≤ (F64.one.add a).mag ∧
      a.mag ≤ (F64.one.add a).mag := by
  obtain ⟨hmag, hsign⟩ := F64.add_of_nonneg (by decide : F64.one.isFinite = true) ha (by decide) hs
  have hle : (F64.one.add a).mag ≤ (F64.one.add .greatestFinite).mag :=
    F64.mag_add_mono (by decide) (by decide) (by decide) (by decide) le_rfl (F64.mag_le_greatestFinite ha)
  have hround {m : Nat} (hm : m ≤ binary64.infMag)
      (h : binary64.units m ≤ binary64.units F64.one.mag + binary64.units a.mag) : m ≤ (F64.one.add a).mag := by
    rw [hmag]
    exact binary64.le_roundMag binary64_prec one_pos hm (by omega)
  exact ⟨F64.isFinite_of_mag_le hle (by decide +kernel), hsign, hround (by decide) (Nat.le_add_right _ _),
    hround (F64.isFinite_iff.mp ha).le (Nat.le_add_left _ _)⟩

/-- Every `TANH` of a finite argument is at most 1 in magnitude (U1). -/
theorem TanhLaws.mag_le_one {f : F64 → F64} (h : TanhLaws f) {x : F64} (hx : x.isFinite = true) :
    (f x).mag ≤ F64.one.mag := by
  obtain ⟨-, hlo, hhi⟩ := h.finite_bounds x hx
  obtain ⟨-, -, hlo⟩ := F64.le_iff.mp hlo
  obtain ⟨-, -, hhi⟩ := F64.le_iff.mp hhi
  have hneg : (F64.neg .one).key = -F64.one.mag := by decide
  have hpos : F64.one.key = F64.one.mag := by decide
  have hmag := (f x).key_natAbs
  omega

end Sys2Proof

namespace Sys2Proof.Machine

/-! ### The terms of `SAT`, as in R101 -/

/-- `(asymmetry * base) * harmonicBoost`. -/
def satShaped (c : Cfg) (x : F64) : F64 :=
  ((satAsymmetry c x).mul (c.tanh x)).mul
    (F64.one.add ((c.satHb.mul (satLevel x.abs)).mul (satFreqScale (satLevel x.abs))))

def satEvenTerm (c : Cfg) (x : F64) : F64 :=
  (((c.satEven.mul x).mul (satLevel x.abs)).mul (satFreqScale (satLevel x.abs))).div (F64.one.add x.abs)

def satThirdTerm (c : Cfg) (x : F64) : F64 :=
  ((c.satThird.mul x).mul ((satLevel x.abs).mul (satLevel x.abs))).mul (satFreqScale (satLevel x.abs))

def satIntermodTerm (c : Cfg) (x : F64) : F64 :=
  ((c.satIm.mul x).mul (satLevel x.abs)).mul (satFreqScale (satLevel x.abs))

theorem sat_eq_terms (c : Cfg) (x : F64) :
    sat c x = (((satShaped c x).add (satEvenTerm c x)).add (satThirdTerm c x)).add (satIntermodTerm c x) := rfl

/-! ### Bounds on the terms (R104) -/

theorem satLevel_bounds {a : F64} (ha : a.isFinite = true) (hs : a.neg? = false) :
    (satLevel a).mag ≤ F64.one.mag ∧ (satLevel a).neg? = false := by
  obtain ⟨hfin, hsign, hone, hself⟩ := F64.one_add_bounds ha hs
  have hone0 : F64.one.mag ≠ 0 := by decide
  have h0 : (F64.one.add a).isZero = false := decide_eq_false (by omega)
  constructor
  · rw [← F64.mag_div_self hfin h0]
    exact F64.mag_div_mono hfin hfin h0 hself le_rfl
  · rw [satLevel, (F64.div_finite ha hfin h0).2, hs, hsign]; rfl

theorem satFreqScale_mag_le {level : F64} (h : level.mag ≤ F64.one.mag) (hs : level.neg? = false) :
    (satFreqScale level).mag ≤ F64.one.mag := by
  have hdouble : (F64.two.mul level).mag ≤ (F64.two.mul .one).mag :=
    F64.mag_mul_mono (by decide) (by decide) le_rfl h
  have hdoubleFin := F64.isFinite_of_mag_le hdouble (by decide +kernel)
  obtain ⟨-, -, hsign⟩ := F64.mul_finite (by decide : F64.two.isFinite = true)
    (F64.isFinite_of_mag_le h (by decide))
  obtain ⟨hfin, -, hone, -⟩ := F64.one_add_bounds hdoubleFin (by rw [hsign, hs]; rfl)
  calc (satFreqScale level).mag ≤ (F64.one.div .one).mag := F64.mag_div_mono (by decide) hfin (by decide) le_rfl hone
    _ = F64.one.mag := by decide +kernel

theorem satAsymmetry_mag_le (x : F64) : (satAsymmetry cfg x).mag ≤ F64.one.mag := by
  unfold satAsymmetry
  split <;> decide

section
variable {x : F64} (hx : x.isFinite = true)
include hx

theorem satLevel_abs_bounds : (satLevel x.abs).mag ≤ F64.one.mag ∧ (satLevel x.abs).neg? = false :=
  satLevel_bounds (x.isFinite_abs.trans hx) x.neg?_abs

theorem satFreqScale_abs_mag_le : (satFreqScale (satLevel x.abs)).mag ≤ F64.one.mag :=
  satFreqScale_mag_le (satLevel_abs_bounds hx).1 (satLevel_abs_bounds hx).2

theorem satShaped_mag_le : (satShaped cfg x).mag ≤ F64.two.mag := by
  have hproduct : ((cfg.satHb.mul (satLevel x.abs)).mul (satFreqScale (satLevel x.abs))).mag ≤
      ((cfg.satHb.mul .one).mul .one).mag :=
    F64.mag_mul_mono (by decide +kernel) (by decide)
      (F64.mag_mul_mono (by decide) (by decide) le_rfl (satLevel_abs_bounds hx).1) (satFreqScale_abs_mag_le hx)
  have hboost : (F64.one.add ((cfg.satHb.mul (satLevel x.abs)).mul (satFreqScale (satLevel x.abs)))).mag ≤
      (F64.one.add ((cfg.satHb.mul .one).mul .one)).mag :=
    F64.mag_add_mono (by decide) (by decide +kernel) (by decide) (by decide +kernel) le_rfl hproduct
  calc (satShaped cfg x).mag ≤ ((F64.one.mul .one).mul (F64.one.add ((cfg.satHb.mul .one).mul .one))).mag :=
        F64.mag_mul_mono (by decide +kernel) (by decide +kernel)
          (F64.mag_mul_mono (by decide) (by decide) (satAsymmetry_mag_le x) (Config.math.tanhLaws.mag_le_one hx)) hboost
    _ ≤ F64.two.mag := by decide +kernel

end

/-- `2^1018`, above 0.008 times any finite number: a bound of the three additive terms of which three sum to a finite
number. -/
def satAddendBound : F64 := ⟨0x7F90000000000000#64⟩

/-- The factors `level` and `freqScale` do not take a product past the bound of the additive terms. -/
theorem mul_mag_le_satAddendBound {a b : F64} (ha : a.mag ≤ satAddendBound.mag) (hb : b.mag ≤ F64.one.mag) :
    (a.mul b).mag ≤ satAddendBound.mag :=
  calc (a.mul b).mag ≤ (satAddendBound.mul .one).mag := F64.mag_mul_mono (by decide) (by decide) ha hb
    _ = satAddendBound.mag := by decide +kernel

section
variable {x : F64} (hx : x.isFinite = true)
include hx

/-- `SAT_EVEN` is the greatest of the three factors. -/
theorem satCoefficient_mul_mag_le {k : F64} (hk : k.mag ≤ cfg.satEven.mag) : (k.mul x).mag ≤ satAddendBound.mag :=
  calc (k.mul x).mag ≤ (cfg.satEven.mul .greatestFinite).mag :=
        F64.mag_mul_mono (by decide) (by decide) hk (F64.mag_le_greatestFinite hx)
    _ ≤ satAddendBound.mag := by decide +kernel

theorem satEvenTerm_mag_le : (satEvenTerm cfg x).mag ≤ satAddendBound.mag := by
  obtain ⟨hfin, -, hone, -⟩ := F64.one_add_bounds (x.isFinite_abs.trans hx) x.neg?_abs
  have hnum := mul_mag_le_satAddendBound
    (mul_mag_le_satAddendBound (satCoefficient_mul_mag_le hx le_rfl) (satLevel_abs_bounds hx).1) (satFreqScale_abs_mag_le hx)
  calc (satEvenTerm cfg x).mag ≤ (satAddendBound.div .one).mag :=
        F64.mag_div_mono (by decide) hfin (by decide) hnum hone
    _ = satAddendBound.mag := by decide +kernel

theorem satThirdTerm_mag_le : (satThirdTerm cfg x).mag ≤ satAddendBound.mag := by
  have hlevel := (satLevel_abs_bounds hx).1
  have hsquare : ((satLevel x.abs).mul (satLevel x.abs)).mag ≤ F64.one.mag :=
    calc _ ≤ (F64.one.mul .one).mag := F64.mag_mul_mono (by decide) (by decide) hlevel hlevel
      _ = F64.one.mag := by decide +kernel
  exact mul_mag_le_satAddendBound (mul_mag_le_satAddendBound (satCoefficient_mul_mag_le hx (by decide)) hsquare)
    (satFreqScale_abs_mag_le hx)

theorem satIntermodTerm_mag_le : (satIntermodTerm cfg x).mag ≤ satAddendBound.mag :=
  mul_mag_le_satAddendBound (mul_mag_le_satAddendBound (satCoefficient_mul_mag_le hx (by decide)) (satLevel_abs_bounds hx).1)
    (satFreqScale_abs_mag_le hx)

end

/-- Three additive terms and a shaped term of at most 2 in magnitude, summed from the left: no sum on the way overflows. -/
theorem satSums_isFinite {s e t i : F64} (hs : s.mag ≤ F64.two.mag) (he : e.mag ≤ satAddendBound.mag)
    (ht : t.mag ≤ satAddendBound.mag) (hi : i.mag ≤ satAddendBound.mag) :
    (s.add e).isFinite = true ∧ ((s.add e).add t).isFinite = true ∧ (((s.add e).add t).add i).isFinite = true := by
  have h1 : (s.add e).mag ≤ (F64.two.add satAddendBound).mag :=
    F64.mag_add_mono (by decide) (by decide) (by decide) (by decide) hs he
  have h2 : ((s.add e).add t).mag ≤ ((F64.two.add satAddendBound).add satAddendBound).mag :=
    F64.mag_add_mono (by decide +kernel) (by decide) (by decide +kernel) (by decide) h1 ht
  have h3 : (((s.add e).add t).add i).mag ≤ (((F64.two.add satAddendBound).add satAddendBound).add satAddendBound).mag :=
    F64.mag_add_mono (by decide +kernel) (by decide) (by decide +kernel) (by decide) h2 hi
  exact ⟨F64.isFinite_of_mag_le h1 (by decide +kernel), F64.isFinite_of_mag_le h2 (by decide +kernel),
    F64.isFinite_of_mag_le h3 (by decide +kernel)⟩

/-- At any finite argument `SAT` is at least what it would be if the shaped term, the only one with `TANH`, were -2. -/
theorem le_key_sat {x : F64} (hx : x.isFinite = true) :
    ((((F64.neg .two).add (satEvenTerm cfg x)).add (satThirdTerm cfg x)).add (satIntermodTerm cfg x)).key ≤
      (sat cfg x).key := by
  have hs := satShaped_mag_le hx
  have he := satEvenTerm_mag_le hx
  have ht := satThirdTerm_mag_le hx
  have hi := satIntermodTerm_mag_le hx
  obtain ⟨hlow1, hlow2, -⟩ := satSums_isFinite (s := F64.neg .two) (by decide) he ht hi
  obtain ⟨hsum1, hsum2, -⟩ := satSums_isFinite hs he ht hi
  have hbound : satAddendBound.isFinite = true := by decide
  have hkey : (F64.neg .two).key ≤ (satShaped cfg x).key := by
    have hneg : (F64.neg .two).key = -F64.two.mag := by decide
    have hmag := (satShaped cfg x).key_natAbs
    omega
  rw [sat_eq_terms]
  exact F64.key_add_mono hlow2 hsum2 (F64.isFinite_of_mag_le hi hbound)
    (F64.key_add_mono hlow1 hsum1 (F64.isFinite_of_mag_le ht hbound)
      (F64.key_add_mono (by decide) (F64.isFinite_of_mag_le hs (by decide)) (F64.isFinite_of_mag_le he hbound) hkey))

/-! ### Arguments that are not finite -/

/-- `Inf / Inf` for an infinity, and a NaN for a NaN. -/
theorem satLevel_isNaN {a : F64} (h : a.isFinite = false) : (satLevel a).isNaN = true := by
  rcases F64.inf_or_nan h with hi | hn
  · obtain ⟨-, habsorb, -⟩ := F64.inf_add_finite hi (by decide : F64.one.isFinite = true)
    rw [satLevel, habsorb]
    exact F64.div_inf_inf hi hi
  · exact F64.div_nan (.inl hn)

theorem sat_isNaN {c : Cfg} {x : F64} (h : x.isFinite = false) : (sat c x).isNaN = true := by
  exact F64.add_nan (.inr (F64.mul_nan (.inl (F64.mul_nan (.inr (satLevel_isNaN (x.isFinite_abs.trans h)))))))

/-! ### The statements -/

/-- Settles O34: the lines of R101 in R101's order. -/
theorem satFormula : Obligations.SatFormula := by
  rintro x base asymmetry a level freqScale harmonicBoost even third intermod rfl rfl rfl rfl rfl rfl rfl rfl rfl
  rfl

/-- As at `+0.0`, the one law of `TANH` this needs is its value there. -/
theorem sat_cfg_negZero_isZero : (sat cfg .negZero).isZero = true := by
  have htanh : cfg.tanh .negZero = .negZero := Config.math.tanhLaws.neg_zero
  unfold sat
  rw [htanh]
  decide +kernel

/-- Settles O35: `TANH` keeps both zeros, and the rest of R101 is arithmetic on constants. -/
theorem satOfZeroIsZero : Obligations.SatOfZeroIsZero := ⟨sat_cfg_posZero, sat_cfg_negZero_isZero⟩

/-- Settles O36: the shaped term is at most 2 and each additive term at most `2^1018` in magnitude; an infinity or a NaN
makes `level` a NaN. -/
theorem satIsFiniteOnFiniteArguments : Obligations.SatIsFiniteOnFiniteArguments := by
  refine fun x => ⟨fun hx => ?_, sat_isNaN⟩
  obtain ⟨-, -, hsum⟩ := satSums_isFinite (satShaped_mag_le hx) (satEvenTerm_mag_le hx) (satThirdTerm_mag_le hx)
    (satIntermodTerm_mag_le hx)
  rwa [sat_eq_terms]

/-- Settles O37: at the greatest finite number the additive terms alone exceed `10^305`, whatever `TANH` is there. -/
theorem satIsNotBounded : Obligations.SatIsNotBounded := by
  have hfin : F64.greatestFinite.isFinite = true := by decide
  have hlow : F64.lt (F64.nearest false (10 ^ 305) 1) ((((F64.neg .two).add (satEvenTerm cfg .greatestFinite)).add
      (satThirdTerm cfg .greatestFinite)).add (satIntermodTerm cfg .greatestFinite)) = true := by decide +kernel
  obtain ⟨hnan, -, hlt⟩ := F64.lt_iff.mp hlow
  obtain ⟨hsat, -⟩ := satIsFiniteOnFiniteArguments .greatestFinite
  exact F64.lt_iff.mpr ⟨hnan, F64.not_nan_of_finite (hsat hfin), hlt.trans_le (le_key_sat hfin)⟩

end Sys2Proof.Machine
end

section
/-! The DC blocker (spec/41_dc_blocker.md R111 and R113): O38 and O39. A finite sum, difference or product has finite
operands, so a finite output needs a finite sample and finite registers. -/

namespace Sys2Proof

/-! ### Finite results have finite operands -/

/-- Only a rounded ratio is finite. -/
theorem F32.ratio_of_finite_finish {e : Exact} {c : Bool × BitVec 23} (h : (F32.finish e c).isFinite = true) :
    ∃ s n d, e = .ratio s n d := by
  cases e with
  | invalid => exact absurd (F32.isNaN_finish_invalid c) (by simp [F32.not_nan_of_finite h])
  | inf s => simp [F32.isFinite, (F32.finish_inf s c).1] at h
  | ratio s n d => exact ⟨s, n, d, rfl⟩

theorem F32.finite_of_val {a : F32} {s : Bool} {m : Nat} (h : a.val = .fin s m) : a.isFinite = true := by
  by_contra hf
  rw [F32.val_eq, if_neg hf] at h
  split at h <;> cases h

theorem Val.fin_of_negate {v : Val} {s : Bool} {m : Nat} (h : v.negate = .fin s m) : ∃ t k, v = .fin t k := by
  cases v with
  | fin t k => exact ⟨t, k, rfl⟩
  | nan | inf => cases h

theorem Val.fin_of_add_ratio {v w : Val} {s : Bool} {n d : Nat} (h : Val.add v w = .ratio s n d) :
    (∃ t k, v = .fin t k) ∧ ∃ t k, w = .fin t k := by
  match v, w with
  | .fin _ _, .fin _ _ => exact ⟨⟨_, _, rfl⟩, _, _, rfl⟩
  | .inf _, .inf _ => rw [Val.add] at h; split at h <;> cases h
  | .nan, _ | .inf _, .nan | .fin _ _, .nan | .inf _, .fin _ _ | .fin _ _, .inf _ => cases h

theorem Val.fin_of_mul_ratio {u : Nat} {v w : Val} {s : Bool} {n d : Nat} (h : Val.mul u v w = .ratio s n d) :
    (∃ t k, v = .fin t k) ∧ ∃ t k, w = .fin t k := by
  match v, w with
  | .fin _ _, .fin _ _ => exact ⟨⟨_, _, rfl⟩, _, _, rfl⟩
  | .inf _, .fin _ _ | .fin _ _, .inf _ => rw [Val.mul] at h; split at h <;> cases h
  | .nan, _ | .inf _, .nan | .fin _ _, .nan | .inf _, .inf _ => cases h

theorem F32.finite_of_add {a b : F32} (h : (a.add b).isFinite = true) : a.isFinite = true ∧ b.isFinite = true := by
  obtain ⟨_, _, _, hsum⟩ := F32.ratio_of_finite_finish h
  obtain ⟨⟨_, _, ha⟩, _, _, hb⟩ := Val.fin_of_add_ratio hsum
  exact ⟨F32.finite_of_val ha, F32.finite_of_val hb⟩

theorem F32.finite_of_sub {a b : F32} (h : (a.sub b).isFinite = true) : a.isFinite = true ∧ b.isFinite = true := by
  obtain ⟨_, _, _, hdiff⟩ := F32.ratio_of_finite_finish h
  obtain ⟨⟨_, _, ha⟩, _, _, hneg⟩ := Val.fin_of_add_ratio hdiff
  obtain ⟨_, _, hb⟩ := Val.fin_of_negate hneg
  exact ⟨F32.finite_of_val ha, F32.finite_of_val hb⟩

theorem F32.finite_of_mul {a b : F32} (h : (a.mul b).isFinite = true) : a.isFinite = true ∧ b.isFinite = true := by
  obtain ⟨_, _, _, hprod⟩ := F32.ratio_of_finite_finish h
  obtain ⟨⟨_, _, ha⟩, _, _, hb⟩ := Val.fin_of_mul_ratio hprod
  exact ⟨F32.finite_of_val ha, F32.finite_of_val hb⟩

end Sys2Proof

namespace Sys2Proof.Machine

theorem dcbNext_prevOut (c : Cfg) (d : DcBlocker) (x : F32) : (dcbNext c d x).prevOut = dcbOut c d x := rfl

/-- The sample and both registers are operands of the output. -/
theorem dcbOut_not_finite {c : Cfg} {d : DcBlocker} {x : F32}
    (h : x.isFinite = false ∨ d.prevIn.isFinite = false ∨ d.prevOut.isFinite = false) :
    (dcbOut c d x).isFinite = false := by
  rw [Bool.eq_false_iff]
  intro hfin
  obtain ⟨hdiff, hfeedback⟩ := F32.finite_of_add hfin
  obtain ⟨hx, hin⟩ := F32.finite_of_sub hdiff
  obtain ⟨-, hout⟩ := F32.finite_of_mul hfeedback
  simp [hx, hin, hout] at h

/-- Each output is the next `dcPrevOut`, whatever the samples. -/
theorem dcbOut_stays_not_finite {c : Cfg} {d : Nat → DcBlocker} {x : Nat → F32}
    (hd : ∀ n, d (n + 1) = dcbNext c (d n) (x n))
    (h : (x 0).isFinite = false ∨ (d 0).prevIn.isFinite = false ∨ (d 0).prevOut.isFinite = false) (n : Nat) :
    (dcbOut c (d n) (x n)).isFinite = false := by
  induction n with
  | zero => exact dcbOut_not_finite h
  | succ n ih =>
    have hout : (d (n + 1)).prevOut.isFinite = false := by rwa [hd, dcbNext_prevOut]
    exact dcbOut_not_finite (.inr (.inr hout))

/-- Settles O38: the lines of R111 in R111's order. -/
theorem dcBlockerFormula : Obligations.DcBlockerFormula := by
  rintro d x _ rfl
  exact ⟨rfl, rfl⟩

/-- Settles O39: a register or a sample that is not finite reaches every later output through `dcPrevOut`; the answer to
silence is arithmetic on constants. -/
theorem dcBlockerKeepsNonFinite : Obligations.DcBlockerKeepsNonFinite := by
  have hsilence : dcbOut cfg { prevIn := .posZero, prevOut := .posZero } .posZero = .posZero := by decide +kernel
  exact ⟨fun _ _ => dcbOut_stays_not_finite, hsilence, by rw [dcbNext, hsilence]⟩

end Sys2Proof.Machine
end

section
/-! The coefficient mapper (spec/42_coefficient_mapper.md R121 to R126, spec/70_reset_and_hazards.md R231 and R232): O40, O41,
O42 and O43. `tune` is bounded by interval arithmetic: each operation of R121 to R123 takes intervals of finite numbers to the
interval between its results at their ends. -/

namespace Sys2Proof

/-! ### The operations and the numeric order -/

theorem F64.add_le_add {a b c d : F64} (ha : a.isFinite = true) (hb : b.isFinite = true) (hc : c.isFinite = true)
    (hd : d.isFinite = true) (hab : F64.le a b = true) (hcd : F64.le c d = true) :
    F64.le (a.add c) (b.add d) = true := by
  rw [(F64.compare_finite ha hb).2] at hab
  rw [(F64.compare_finite hc hd).2] at hcd
  obtain ⟨hnan, hkey⟩ := F64.add_finite ha hc
  obtain ⟨hnan', hkey'⟩ := F64.add_finite hb hd
  rw [F64.le_iff, hkey, hkey']
  exact ⟨hnan, hnan', binary64.signedRound_mono binary64_prec one_pos one_pos (by omega)⟩

theorem F64.sub_le_sub {a b c d : F64} (ha : a.isFinite = true) (hb : b.isFinite = true) (hc : c.isFinite = true)
    (hd : d.isFinite = true) (hab : F64.le a b = true) (hcd : F64.le c d = true) :
    F64.le (a.sub d) (b.sub c) = true := by
  rw [(F64.compare_finite ha hb).2] at hab
  rw [(F64.compare_finite hc hd).2] at hcd
  obtain ⟨hnan, hkey⟩ := F64.sub_finite ha hd
  obtain ⟨hnan', hkey'⟩ := F64.sub_finite hb hc
  rw [F64.le_iff, hkey, hkey']
  exact ⟨hnan, hnan', binary64.signedRound_mono binary64_prec one_pos one_pos (by omega)⟩

theorem F64.toUnits_posZero : F64.posZero.toUnits = 0 := by decide

/-- A finite datum is not negative exactly when its value is not; `-0.0` counts as not negative. -/
theorem F64.posZero_le_iff {a : F64} (ha : a.isFinite = true) : F64.le .posZero a = true ↔ 0 ≤ a.toUnits := by
  rw [(F64.compare_finite (by decide) ha).2, F64.toUnits_posZero]

/-- A product of factors that are not negative grows with both. -/
theorem F64.mul_le_mul {a b c d : F64} (ha : a.isFinite = true) (hb : b.isFinite = true) (hc : c.isFinite = true)
    (hd : d.isFinite = true) (hab : F64.le a b = true) (hcd : F64.le c d = true) (ha0 : F64.le .posZero a = true)
    (hc0 : F64.le .posZero c = true) : F64.le (a.mul c) (b.mul d) = true := by
  rw [(F64.compare_finite ha hb).2] at hab
  rw [(F64.compare_finite hc hd).2] at hcd
  rw [F64.posZero_le_iff ha] at ha0
  rw [F64.posZero_le_iff hc] at hc0
  obtain ⟨hnan, hkey, -⟩ := F64.mul_finite ha hc
  obtain ⟨hnan', hkey', -⟩ := F64.mul_finite hb hd
  have hproduct : a.toUnits * c.toUnits ≤ b.toUnits * d.toUnits := Int.mul_le_mul hab hcd hc0 (ha0.trans hab)
  have hunit : 0 < 2 ^ binary64.unit := by positivity
  rw [F64.le_iff, hkey, hkey']
  exact ⟨hnan, hnan',
    binary64.signedRound_mono binary64_prec hunit hunit (mul_le_mul_of_nonneg_right hproduct (by positivity))⟩

/-- A quotient by a positive number grows with its dividend. -/
theorem F64.div_le_div {a b c : F64} (ha : a.isFinite = true) (hb : b.isFinite = true) (hc : c.isFinite = true)
    (hpos : 0 < c.toUnits) (hab : F64.le a b = true) : F64.le (a.div c) (b.div c) = true := by
  rw [(F64.compare_finite ha hb).2] at hab
  obtain ⟨hnan, hkey⟩ := F64.div_finite_pos ha hc hpos
  obtain ⟨hnan', hkey'⟩ := F64.div_finite_pos hb hc hpos
  have hden : 0 < c.toUnits.natAbs := by omega
  rw [F64.le_iff, hkey, hkey']
  exact ⟨hnan, hnan', binary64.signedRound_mono binary64_prec hden hden
    (mul_le_mul_of_nonneg_right (mul_le_mul_of_nonneg_right hab (by positivity)) (by positivity))⟩

theorem F64.key_neg (a : F64) : a.neg.key = -a.key := by
  unfold F64.key
  rw [F64.neg?_neg, F64.mag_neg]
  cases a.neg? <;> simp

theorem F64.isNaN_neg (a : F64) : a.neg.isNaN = a.isNaN := by rw [F64.isNaN, F64.isNaN, F64.mag_neg]

theorem F64.neg_le_posZero {a : F64} (h : F64.le .posZero a = true) : F64.le a.neg .posZero = true := by
  obtain ⟨hzero, hnan, hkey⟩ := F64.le_iff.mp h
  have hzeroKey : F64.posZero.key = 0 := by decide
  exact F64.le_iff.mpr ⟨a.isNaN_neg.trans hnan, hzero, by rw [F64.key_neg]; omega⟩

theorem F64.le_trans {a b c : F64} (hab : F64.le a b = true) (hbc : F64.le b c = true) : F64.le a c = true := by
  obtain ⟨ha, -, hkey⟩ := F64.le_iff.mp hab
  obtain ⟨-, hc, hkey'⟩ := F64.le_iff.mp hbc
  exact F64.le_iff.mpr ⟨ha, hc, hkey.trans hkey'⟩

theorem F64.le_refl {a : F64} (h : a.isNaN = false) : F64.le a a = true := F64.le_iff.mpr ⟨h, h, le_rfl⟩

/-- Without a NaN the comparisons are complementary. -/
theorem F64.le_of_gt_eq_false {a b : F64} (ha : a.isNaN = false) (hb : b.isNaN = false) (h : a.gt b = false) :
    F64.le a b = true := by
  have hkey : ¬b.key < a.key := fun hlt => by simp [F64.gt, F64.lt_iff.mpr ⟨hb, ha, hlt⟩] at h
  exact F64.le_iff.mpr ⟨ha, hb, not_lt.mp hkey⟩

theorem F64.gt_of_gt_of_le {a b c : F64} (hbc : b.gt c = true) (hba : F64.le b a = true) : a.gt c = true := by
  obtain ⟨hc, -, hlt⟩ := F64.lt_iff.mp hbc
  obtain ⟨-, ha, hle⟩ := F64.le_iff.mp hba
  exact F64.lt_iff.mpr ⟨hc, ha, hlt.trans_le hle⟩

/-! ### Intervals of finite numbers -/

/-- `a` lies between two finite numbers. -/
structure F64.Within (lo hi a : F64) : Prop where
  lo_finite : lo.isFinite = true
  hi_finite : hi.isFinite = true
  lo_le : F64.le lo a = true
  le_hi : F64.le a hi = true

namespace F64.Within

variable {lo hi lo' hi' a b : F64}

theorem finite (h : Within lo hi a) : a.isFinite = true := by
  obtain ⟨-, -, hlo⟩ := F64.le_iff.mp h.lo_le
  obtain ⟨-, -, hhi⟩ := F64.le_iff.mp h.le_hi
  have hloMag := F64.isFinite_iff.mp h.lo_finite
  have hhiMag := F64.isFinite_iff.mp h.hi_finite
  rw [← F64.key_natAbs] at hloMag hhiMag
  rw [F64.isFinite_iff, ← F64.key_natAbs]
  omega

theorem self (ha : a.isFinite = true) : Within a a a :=
  ⟨ha, ha, F64.le_refl (F64.not_nan_of_finite ha), F64.le_refl (F64.not_nan_of_finite ha)⟩

theorem weaken (h : Within lo hi a) (hfin : lo'.isFinite = true ∧ hi'.isFinite = true)
    (hends : F64.le lo' lo = true ∧ F64.le hi hi' = true) : Within lo' hi' a :=
  ⟨hfin.1, hfin.2, F64.le_trans hends.1 h.lo_le, F64.le_trans h.le_hi hends.2⟩

theorem add (ha : Within lo hi a) (hb : Within lo' hi' b)
    (hfin : (lo.add lo').isFinite = true ∧ (hi.add hi').isFinite = true) :
    Within (lo.add lo') (hi.add hi') (a.add b) :=
  ⟨hfin.1, hfin.2, F64.add_le_add ha.lo_finite ha.finite hb.lo_finite hb.finite ha.lo_le hb.lo_le,
    F64.add_le_add ha.finite ha.hi_finite hb.finite hb.hi_finite ha.le_hi hb.le_hi⟩

theorem sub (ha : Within lo hi a) (hb : Within lo' hi' b)
    (hfin : (lo.sub hi').isFinite = true ∧ (hi.sub lo').isFinite = true) :
    Within (lo.sub hi') (hi.sub lo') (a.sub b) :=
  ⟨hfin.1, hfin.2, F64.sub_le_sub ha.lo_finite ha.finite hb.finite hb.hi_finite ha.lo_le hb.le_hi,
    F64.sub_le_sub ha.finite ha.hi_finite hb.lo_finite hb.finite ha.le_hi hb.lo_le⟩

/-- For intervals with no negative number. -/
theorem mul (ha : Within lo hi a) (hb : Within lo' hi' b)
    (h0 : F64.le .posZero lo = true ∧ F64.le .posZero lo' = true)
    (hfin : (lo.mul lo').isFinite = true ∧ (hi.mul hi').isFinite = true) :
    Within (lo.mul lo') (hi.mul hi') (a.mul b) :=
  ⟨hfin.1, hfin.2, F64.mul_le_mul ha.lo_finite ha.finite hb.lo_finite hb.finite ha.lo_le hb.lo_le h0.1 h0.2,
    F64.mul_le_mul ha.finite ha.hi_finite hb.finite hb.hi_finite ha.le_hi hb.le_hi (F64.le_trans h0.1 ha.lo_le)
      (F64.le_trans h0.2 hb.lo_le)⟩

theorem div (ha : Within lo hi a) (hb : b.isFinite = true) (hpos : 0 < b.toUnits)
    (hfin : (lo.div b).isFinite = true ∧ (hi.div b).isFinite = true) : Within (lo.div b) (hi.div b) (a.div b) :=
  ⟨hfin.1, hfin.2, F64.div_le_div ha.lo_finite ha.finite hb hpos ha.lo_le,
    F64.div_le_div ha.finite ha.hi_finite hb hpos ha.le_hi⟩

end F64.Within

/-! ### The zeros and the order of binary32 -/

theorem F32.eq_zero_of_isZero {a : F32} (h : a.isZero = true) : a = .posZero ∨ a = ⟨0x80000000#32⟩ := by
  have hmag : a.mag = 0 := of_decide_eq_true h
  cases hs : a.neg? with
  | false => exact .inl (F32.eq_of_mag_of_neg? hmag hs)
  | true => exact .inr (F32.eq_of_mag_of_neg? hmag hs)

theorem F32.widen_le_widen {a b : F32} (ha : a.isFinite = true) (hb : b.isFinite = true) (h : F32.le a b = true) :
    F64.le a.widen b.widen = true := by
  rw [(F32.compare_finite ha hb).2] at h
  rw [(F64.compare_finite (F32.widen_finite ha).1 (F32.widen_finite hb).1).2, F32.toUnits_widen ha, F32.toUnits_widen hb]
  exact mul_le_mul_of_nonneg_right h (by positivity)

/-- The only infinity that is at least a finite number is the positive one. -/
theorem F32.neg?_of_finite_le_inf {a b : F32} (ha : a.isFinite = true) (hb : b.isInf = true) (h : F32.le a b = true) :
    b.neg? = false := by
  by_contra hs
  obtain ⟨hneg, -⟩ := F32.compare_inf hb (F32.not_nan_of_finite ha)
  obtain ⟨-, -, -, heq⟩ := hneg (Bool.not_eq_false _ ▸ hs)
  have hab : a = b := heq.mp h
  rw [hab, F32.isFinite, F32.isInf_iff.mp hb] at ha
  exact absurd ha (by decide)

end Sys2Proof

namespace Sys2Proof.Machine

/-! ### The clamped cutoff (R121) -/

theorem cfg_fs_pos : cfg.fs.isFinite = true ∧ cfg.fs.neg? = false ∧ 0 < cfg.fs.toUnits := by decide +kernel

theorem normalisedCutoff_not_nan {cutoff : F32} (h : cutoff.isNaN = false) :
    (cutoff.widen.div cfg.fs).isNaN = false := by
  obtain ⟨hfs, -, hpos⟩ := cfg_fs_pos
  rcases F32.finite_or_inf h with hf | hi
  · exact (F64.div_finite_pos (F32.widen_finite hf).1 hfs hpos).1
  · exact F64.not_nan_of_inf (F64.div_inf_finite (F32.widen_inf hi).1 hfs).1

/-- The normalised cutoff grows with the cutoff, from a finite one up to infinity. -/
theorem normalisedCutoff_mono {a b : F32} (ha : a.isFinite = true) (h : F32.le a b = true) :
    F64.le (a.widen.div cfg.fs) (b.widen.div cfg.fs) = true := by
  obtain ⟨hfs, hsign, hpos⟩ := cfg_fs_pos
  obtain ⟨-, hnan, -⟩ := F32.le_iff.mp h
  rcases F32.finite_or_inf hnan with hb | hb
  · exact F64.div_le_div (F32.widen_finite ha).1 (F32.widen_finite hb).1 hfs hpos (F32.widen_le_widen ha hb h)
  · obtain ⟨hwide, hneg⟩ := F32.widen_inf hb
    obtain ⟨hinf, hneg'⟩ := F64.div_inf_finite hwide hfs
    rw [hneg, F32.neg?_of_finite_le_inf ha hb h, hsign] at hneg'
    obtain ⟨-, hgreatest⟩ := F64.compare_inf hinf (normalisedCutoff_not_nan (F32.not_nan_of_finite ha))
    exact (hgreatest hneg').1

theorem coefFc_of_gt {c : Cfg} {cutoff : F32} (h : (cutoff.widen.div c.fs).gt c.fcMax = true) :
    coefFc c cutoff = c.fcMax := if_pos h

theorem coefFc_of_not_gt {c : Cfg} {cutoff : F32} (h : (cutoff.widen.div c.fs).gt c.fcMax = false) :
    coefFc c cutoff = cutoff.widen.div c.fs := if_neg (by simp [h])

theorem coefFc_le_fcMax {cutoff : F32} (h : cutoff.isNaN = false) : F64.le (coefFc cfg cutoff) cfg.fcMax = true := by
  cases hgt : (cutoff.widen.div cfg.fs).gt cfg.fcMax with
  | true => rw [coefFc_of_gt hgt]; decide
  | false =>
    rw [coefFc_of_not_gt hgt]
    exact F64.le_of_gt_eq_false (normalisedCutoff_not_nan h) (by decide) hgt

/-- 19846 Hz is already above `FC_MAX` of the sample rate. -/
theorem coefFc_eq_fcMax {cutoff : F32} (h : F32.le (F32.nearest false 19846 1) cutoff = true) :
    coefFc cfg cutoff = cfg.fcMax := by
  have hgt : ((F32.nearest false 19846 1).widen.div cfg.fs).gt cfg.fcMax = true := by decide +kernel
  exact coefFc_of_gt (F64.gt_of_gt_of_le hgt (normalisedCutoff_mono (by decide +kernel) h))

theorem coefFc_nan {c : Cfg} {cutoff : F32} (h : cutoff.isNaN = true) : (coefFc c cutoff).isNaN = true := by
  have hnan : (cutoff.widen.div c.fs).isNaN = true := F64.div_nan (.inl (F32.widen_nan h))
  obtain ⟨-, -, -, hlt, -⟩ := F64.nan_operand (a := c.fcMax) (.inr hnan)
  rwa [coefFc_of_not_gt hlt]

theorem coefFc_within {cutoff : F32} (h : F32.le .posZero cutoff = true) :
    F64.Within .posZero cfg.fcMax (coefFc cfg cutoff) := by
  obtain ⟨-, hnan, -⟩ := F32.le_iff.mp h
  refine ⟨by decide, by decide, ?_, coefFc_le_fcMax hnan⟩
  cases hgt : (cutoff.widen.div cfg.fs).gt cfg.fcMax with
  | true => rw [coefFc_of_gt hgt]; decide
  | false =>
    have hzero : F32.posZero.widen.div cfg.fs = .posZero := by decide +kernel
    rw [coefFc_of_not_gt hgt, ← hzero]
    exact normalisedCutoff_mono (by decide) h

/-! ### The integrator gain (R122, R123) -/

/-- The argument of `EXP` in R123. -/
def coefExponent (c : Cfg) (fc : F64) : F64 := ((c.twoPi.mul (fc.div .two)).mul (coefFcr c fc)).neg

theorem coef_tune (c : Cfg) (cutoff resonance : F32) : (coef c cutoff resonance).tune =
    (F64.one.sub (c.exp (coefExponent c (coefFc c cutoff)))).div c.thermal := by
  rw [coef, coefTune, coefExponent]

theorem coef_acr (c : Cfg) (cutoff resonance : F32) : (coef c cutoff resonance).acr = coefAcr c (coefFc c cutoff) := by
  rw [coef]

theorem coef_resQuad (c : Cfg) (cutoff resonance : F32) : (coef c cutoff resonance).resQuad =
    (F64.four.mul resonance.widen).mul (coefAcr c (coefFc c cutoff)) := by
  rw [coef]

/-- `0.6490 * fc` takes at most 0.3 from a sum that is not negative, and `FCR0` adds more than 0.9. -/
theorem coefFcr_within {fc : F64} (h : F64.Within .posZero cfg.fcMax fc) : F64.Within .posZero .two (coefFcr cfg fc) := by
  have hsquare := h.mul h (by decide) (by decide +kernel)
  have hcube := hsquare.mul h (by decide +kernel) (by decide +kernel)
  have hcubic := (F64.Within.self (a := cfg.fcr3) (by decide)).mul hcube (by decide +kernel) (by decide +kernel)
  have hquadratic := (F64.Within.self (a := cfg.fcr2) (by decide)).mul hsquare (by decide +kernel) (by decide +kernel)
  have hlinear := (F64.Within.self (a := cfg.fcr1.neg) (by decide)).mul h (by decide) (by decide +kernel)
  have hdifference := (hcubic.add hquadratic (by decide +kernel)).sub hlinear (by decide +kernel)
  exact (hdifference.add (F64.Within.self (a := cfg.fcr0) (by decide)) (by decide +kernel)).weaken (by decide)
    (by decide +kernel)

theorem coefExponent_nonpos {fc : F64} (h : F64.Within .posZero cfg.fcMax fc) :
    F64.le (coefExponent cfg fc) .posZero = true := by
  have hhalf := h.div (b := .two) (by decide) (by decide +kernel) (by decide +kernel)
  have hangle := (F64.Within.self (a := cfg.twoPi) (by decide)).mul hhalf (by decide +kernel) (by decide +kernel)
  have hproduct := hangle.mul (coefFcr_within h) (by decide +kernel) (by decide +kernel)
  exact F64.neg_le_posZero (F64.le_trans (by decide +kernel) hproduct.lo_le)

/-- `EXP` of the exponent is between 0 and 1 (U1), so the quotient by `THERMAL` is between 0 and its reciprocal. -/
theorem coef_tune_within {cutoff : F32} (h : F32.le .posZero cutoff = true) (resonance : F32) :
    F64.Within .posZero (F64.nearest false 40000 1) (coef cfg cutoff resonance).tune := by
  obtain ⟨hlo, hhi⟩ := Config.math.expLaws.nonpos_bounds _ (coefExponent_nonpos (coefFc_within h))
  have hexp : F64.Within .posZero .one (cfg.exp (coefExponent cfg (coefFc cfg cutoff))) :=
    ⟨by decide, by decide, hlo, hhi⟩
  have hcomplement := (F64.Within.self (a := .one) (by decide)).sub hexp (by decide +kernel)
  rw [coef_tune]
  exact (hcomplement.div (b := cfg.thermal) (by decide) (by decide +kernel) (by decide +kernel)).weaken
    (by decide +kernel) (by decide +kernel)

/-- At a cutoff of either zero the exponent is a zero, where `EXP` is 1 (U1). -/
theorem exp_coefExponent_of_isZero {cutoff : F32} (h : cutoff.isZero = true) :
    cfg.exp (coefExponent cfg (coefFc cfg cutoff)) = .one := by
  rcases F32.eq_zero_of_isZero h with rfl | rfl
  · have hexponent : coefExponent cfg (coefFc cfg .posZero) = .negZero := by decide +kernel
    exact hexponent ▸ Config.math.expLaws.neg_zero
  · have hexponent : coefExponent cfg (coefFc cfg ⟨0x80000000#32⟩) = .posZero := by decide +kernel
    exact hexponent ▸ Config.math.expLaws.pos_zero

/-! ### A NaN cutoff (R232) -/

theorem coefExponent_nan (c : Cfg) {fc : F64} (h : fc.isNaN = true) : (coefExponent c fc).isNaN = true :=
  (F64.isNaN_neg _).trans (F64.mul_nan (.inl (F64.mul_nan (.inr (F64.div_nan (.inl h))))))

theorem coefAcr_nan (c : Cfg) {fc : F64} (h : fc.isNaN = true) : (coefAcr c fc).isNaN = true :=
  F64.add_nan (.inl (F64.add_nan (.inr (F64.mul_nan (.inr h)))))

theorem coef_nan {c : Cfg} (hexp : ExpLaws c.exp) {cutoff : F32} (h : cutoff.isNaN = true) (resonance : F32) :
    (coef c cutoff resonance).tune.isNaN = true ∧ (coef c cutoff resonance).acr.isNaN = true ∧
      (coef c cutoff resonance).resQuad.isNaN = true := by
  have hacr := coefAcr_nan c (coefFc_nan (c := c) h)
  rw [coef_tune, coef_acr, coef_resQuad]
  exact ⟨F64.div_nan (.inl (F64.sub_nan (.inr (hexp.nan _ (coefExponent_nan c (coefFc_nan h)))))), hacr,
    F64.mul_nan (.inr hacr)⟩

/-! ### The statements -/

/-- Settles O41: from 19846 Hz on the clamped cutoff is `FC_MAX`, and `tune` and `acr` depend on nothing else. -/
theorem cutoffClampHolds : Obligations.CutoffClampHolds := by
  refine ⟨fun _ => coefFc_le_fcMax, fun cutoff resonance h => ?_, fun _ => coefFc_nan⟩
  have hfc : coefFc cfg cutoff = coefFc cfg (F32.nearest false 19846 1) := by
    rw [coefFc_eq_fcMax h, coefFc_eq_fcMax (by decide +kernel)]
  rw [coef_tune, coef_tune, coef_acr, coef_acr, hfc]
  exact ⟨rfl, rfl⟩

/-- Settles O42: at a zero cutoff `1 - EXP` is `1 - 1`; a NaN is an operand of each line of R121 to R124. -/
theorem coefOfZeroAndOfNaN : Obligations.CoefOfZeroAndOfNaN := by
  refine ⟨fun cutoff resonance h => ?_, fun _ resonance h => coef_nan Config.math.expLaws h resonance⟩
  rw [coef_tune, exp_coefExponent_of_isZero h]
  decide +kernel

/-- Settles O43: `tune` lies between the finite numbers 0 and 40000. -/
theorem tuneIsBoundedForNonNegativeCutoffs : Obligations.TuneIsBoundedForNonNegativeCutoffs := by
  intro cutoff resonance h
  have htune := coef_tune_within h resonance
  exact ⟨htune.finite, htune.lo_le, htune.le_hi⟩

/-- Settles O40: the lines of R121 to R124 in their order, with 0.6490 as `-FCR1`. -/
theorem coefFormula : Obligations.CoefFormula := by
  have hfcr1 : F64.nearest false 6490 10000 = cfg.fcr1.neg := by decide +kernel
  rintro cutoff resonance fc0 fc fc2 fc3 fcr acr rfl rfl rfl rfl rfl rfl
  rw [hfcr1]
  rfl

end Sys2Proof.Machine
end

section
/-! The parameter smoother (spec/43_parameter_smoother.md R134) and the block it begins (spec/44_ladder_core.md R147 and R148):
O44 and O47. -/

namespace Sys2Proof

/-! ### Less than half of a rounded number -/

/-- Less than half of a number rounds to less than the number: it is below the midpoint of the number and the one before. -/
theorem Format.roundMag_lt_of_lt_half (f : Format) (hp : 2 ≤ f.prec) {num den m : Nat} (hd : 0 < den)
    (h : 2 * num < f.units m * den) : f.roundMag num den < m := by
  obtain ⟨k, hlo, -, hround⟩ := f.roundMag_spec hp num den hd
  have hkm : k < m := by
    by_contra hge
    have hunits : f.units m * den ≤ f.units k * den :=
      Nat.mul_le_mul_right den (f.units_strictMono.monotone (not_lt.mp hge))
    omega
  rw [hround]
  refine (min_le_left _ _).trans_lt ?_
  rcases Nat.lt_or_eq_of_le (show k + 1 ≤ m from hkm) with hlt | rfl
  · split <;> omega
  · rw [Nat.add_mul, if_neg (by omega)]
    exact hkm

/-- Less than half of `n` rounded, rounded again, does not exceed `n`, although the first rounding may. If it did, `n` would
have rounded to no more than the product, which is less than what `n` rounded to. -/
theorem Format.units_roundMag_mul_le (f : Format) (hp : 2 ≤ f.prec) (n : Nat) {c den : Nat} (hc : 2 * c < den) :
    f.units (f.roundMag (f.units (f.roundMag n 1) * c) den) ≤ n := by
  have hd : 0 < den := by omega
  by_contra hexceeds
  have hle : f.roundMag n 1 ≤ f.roundMag (f.units (f.roundMag n 1) * c) den := f.roundMag_le hp one_pos (by omega)
  rcases Nat.eq_zero_or_pos (f.units (f.roundMag n 1)) with hzero | hpos
  · simp [hzero, f.roundMag_zero hp den hd] at hexceeds
  · have hhalf : 2 * (f.units (f.roundMag n 1) * c) < f.units (f.roundMag n 1) * den := by
      rw [Nat.mul_left_comm]
      exact Nat.mul_lt_mul_of_pos_left hc hpos
    exact absurd (f.roundMag_lt_of_lt_half hp hd hhalf) (not_lt.mpr hle)

/-! ### Sums in binary32 -/

theorem F32.toUnits_natAbs (a : F32) : a.toUnits.natAbs = binary32.units a.mag := signedUnits_natAbs _ _

/-- A number below an exact sum is below the rounded sum. -/
theorem F32.le_add {a b lo : F32} (ha : a.isFinite = true) (hb : b.isFinite = true) (hlo : lo.isFinite = true)
    (h : lo.toUnits ≤ a.toUnits + b.toUnits) : F32.le lo (a.add b) = true := by
  have hnan := F32.not_nan_of_finite hlo
  obtain ⟨hnan', hkey⟩ := F32.add_finite ha hb
  refine F32.le_iff.mpr ⟨hnan, hnan', hkey ▸ ?_⟩
  exact binary32.le_signedRound binary32_prec one_pos (F32.key_le_inf hnan) (by rw [← F32.toUnits_keyUnits]; omega)

/-- A number above an exact sum is above the rounded sum. -/
theorem F32.add_le {a b hi : F32} (ha : a.isFinite = true) (hb : b.isFinite = true) (hhi : hi.isFinite = true)
    (h : a.toUnits + b.toUnits ≤ hi.toUnits) : F32.le (a.add b) hi = true := by
  have hnan := F32.not_nan_of_finite hhi
  obtain ⟨hnan', hkey⟩ := F32.add_finite ha hb
  refine F32.le_iff.mpr ⟨hnan', hnan, hkey ▸ ?_⟩
  exact binary32.signedRound_le binary32_prec one_pos (F32.key_le_inf hnan) (by rw [← F32.toUnits_keyUnits]; omega)

/-! ### The increment of R131 -/

/-- A number from zero up to one half, not included. With such a coefficient a difference that is rounded up does no harm. -/
structure F32.BelowHalf (c : F32) : Prop where
  finite : c.isFinite = true
  nonneg : c.neg? = false
  lt_half : 2 * binary32.units c.mag < 2 ^ binary32.unit

variable {live target c : F32}

/-- In magnitude the increment exceeds neither the rounded difference nor the exact one. -/
theorem F32.BelowHalf.mag_sub_mul_le (hc : c.BelowHalf) (hlive : live.isFinite = true) (htarget : target.isFinite = true)
    (hdiff : (target.sub live).isFinite = true) :
    ((target.sub live).mul c).mag ≤ (target.sub live).mag ∧
      binary32.units ((target.sub live).mul c).mag ≤ (target.toUnits - live.toUnits).natAbs := by
  obtain ⟨-, hsub⟩ := F32.sub_finite htarget hlive
  obtain ⟨-, hmul, -⟩ := F32.mul_finite hdiff hc.finite
  rw [F32.mag_of_key hmul, Int.natAbs_mul, F32.toUnits_natAbs, F32.toUnits_natAbs]
  have hlt := hc.lt_half
  refine ⟨binary32.roundMag_le binary32_prec (by positivity) (Nat.mul_le_mul_left _ (by omega)), ?_⟩
  rw [F32.mag_of_key hsub]
  exact binary32.units_roundMag_mul_le binary32_prec _ hlt

/-- The increment has the sign of the exact difference, or is zero. -/
theorem F32.BelowHalf.neg?_sub_mul (hc : c.BelowHalf) (hlive : live.isFinite = true) (htarget : target.isFinite = true)
    (hdiff : (target.sub live).isFinite = true) (h0 : ((target.sub live).mul c).mag ≠ 0) :
    ((target.sub live).mul c).neg? = true ↔ target.toUnits < live.toUnits := by
  obtain ⟨-, hsub⟩ := F32.sub_finite htarget hlive
  obtain ⟨-, -, hsign⟩ := F32.mul_finite hdiff hc.finite
  obtain ⟨hle, -⟩ := hc.mag_sub_mul_le hlive htarget hdiff
  rw [hsign, hc.nonneg, Bool.bne_false, F32.neg?_of_key hsub (by omega), sub_neg]

/-- The increment lies between zero and the exact difference. -/
theorem F32.BelowHalf.toUnits_sub_mul (hc : c.BelowHalf) (hlive : live.isFinite = true) (htarget : target.isFinite = true)
    (hdiff : (target.sub live).isFinite = true) :
    (live.toUnits ≤ target.toUnits → 0 ≤ ((target.sub live).mul c).toUnits ∧
        ((target.sub live).mul c).toUnits ≤ target.toUnits - live.toUnits) ∧
      (target.toUnits ≤ live.toUnits → target.toUnits - live.toUnits ≤ ((target.sub live).mul c).toUnits ∧
        ((target.sub live).mul c).toUnits ≤ 0) := by
  obtain ⟨-, hle⟩ := hc.mag_sub_mul_le hlive htarget hdiff
  have hsign := hc.neg?_sub_mul hlive htarget hdiff
  generalize (target.sub live).mul c = x at *
  rw [F32.toUnits_eq x, signedUnits]
  by_cases h0 : x.mag = 0
  · simp only [h0, Format.units_zero] at hle ⊢
    split <;> omega
  · simp only [hsign h0]
    split <;> omega

end Sys2Proof

namespace Sys2Proof.Machine

/-- Both deployed smoothing coefficients are 0.1. -/
theorem belowHalf_of_smoothing {c : F32} (h : c = cfg.smoothCut ∨ c = cfg.smoothRes) : c.BelowHalf := by
  have hc : c = ⟨0x3DCCCCCD#32⟩ := h.elim id id
  subst hc
  exact ⟨by decide, by decide, by decide +kernel⟩

/-- Settles O44: the exact sum of `live` and the increment lies between `live` and `target`, and so does the rounded one. -/
theorem smoothingNeverOvershoots : Obligations.SmoothingNeverOvershoots := by
  intro live target c hcoef hlive htarget hdiff
  have hc := belowHalf_of_smoothing hcoef
  have hinc : ((target.sub live).mul c).isFinite = true :=
    F32.isFinite_iff.mpr ((hc.mag_sub_mul_le hlive htarget hdiff).1.trans_lt (F32.isFinite_iff.mp hdiff))
  obtain ⟨hup, hdown⟩ := hc.toUnits_sub_mul hlive htarget hdiff
  unfold approach
  rw [(F32.compare_finite hlive htarget).2, (F32.compare_finite htarget hlive).2]
  refine ⟨fun h => ?_, fun h => ?_⟩
  · obtain ⟨hlo, hhi⟩ := hup h
    exact ⟨F32.le_add hlive hinc hlive (by omega), F32.add_le hlive hinc htarget (by omega)⟩
  · obtain ⟨hlo, hhi⟩ := hdown h
    exact ⟨F32.le_add hlive hinc htarget (by omega), F32.add_le hlive hinc hlive (by omega)⟩

/-! ### The registers between the samples of a block -/

/-- The registers after the prologue and the first `n` samples of a block. -/
def regsAfter (c : Cfg) (r : Regs) (samples : List F32) (n : Nat) : Regs := (processSamples c r (samples.take n)).1

/-- Sample `n` takes the registers after the samples before it one sample further, and makes output `n`. -/
theorem sampleLoop_of_getElem? (c : Cfg) (r : Regs) {xs : List F32} {n : Nat} {x : F32} (h : xs[n]? = some x) :
    (sampleLoop c r (xs.take (n + 1))).1 = sampleNext c (sampleLoop c r (xs.take n)).1 x ∧
      (sampleLoop c r xs).2[n]? = some (sampleOut c (sampleLoop c r (xs.take n)).1 x) := by
  induction xs generalizing r n with
  | nil => cases h
  | cons y ys ih =>
    cases n with
    | zero => cases h; exact ⟨rfl, rfl⟩
    | succ n => exact ih (sampleNext c r y) h

theorem regsAfter_succ (c : Cfg) (r : Regs) {samples : List F32} {n : Nat} {x : F32} (h : samples[n]? = some x) :
    regsAfter c r samples (n + 1) = sampleNext c (regsAfter c r samples n) x :=
  (sampleLoop_of_getElem? c (prologue c r) h).1

theorem processSamples_getElem? (c : Cfg) (r : Regs) {samples : List F32} {n : Nat} {x : F32} (h : samples[n]? = some x) :
    (processSamples c r samples).2[n]? = some (regsAfter c r samples (n + 1)).filter.delay5.narrow := by
  rw [regsAfter_succ c r h]
  exact (sampleLoop_of_getElem? c (prologue c r) h).2

theorem regsAfter_length (c : Cfg) (r : Regs) (samples : List F32) :
    regsAfter c r samples samples.length = (processSamples c r samples).1 := by
  rw [regsAfter, List.take_length]

/-- Settles O47: the register values are `regsAfter`, from the prologue's on. -/
theorem processBlockResult : Obligations.ProcessBlockResult := by
  intro s r samples hb hlen
  obtain ⟨-, -, -, hout⟩ := processSamples_frame cfg r samples
  refine ⟨regsAfter cfg r samples, (processSamples cfg r samples).2, rfl, hout.trans hlen, fun n x hx => ?_, ?_⟩
  · exact ⟨_, _, rfl, rfl, regsAfter_succ cfg r hx, processSamples_getElem? cfg r hx⟩
  · rw [← hlen, regsAfter_length]
    exact execProcessBlockAt_ready hb hlen

end Sys2Proof.Machine
end

section
/-! The ladder core (spec/44_ladder_core.md): O46, O49 and O50. A NaN in the feedback tap runs through the four stages of a
sub-step and back into the tap; with a silent input the zero filter is a fixed point of a sub-step, for any finite
coefficients. -/

namespace Sys2Proof

theorem F64.not_finite_of_nan {a : F64} (h : a.isNaN = true) : a.isFinite = false := by
  rw [Bool.eq_false_iff]
  intro hfin
  simp [F64.not_nan_of_finite hfin] at h

theorem F64.eq_zero_of_isZero {a : F64} (h : a.isZero = true) : a = .posZero ∨ a = .negZero := by
  have hmag : a.mag = 0 := decide_eq_true_iff.mp h
  cases hs : a.neg? with
  | false => exact .inl (F64.eq_of_mag_of_neg? hmag hs)
  | true => exact .inr (F64.eq_of_mag_of_neg? hmag hs)

theorem F64.isZero_mul_posZero {a : F64} (ha : a.isFinite = true) : (a.mul .posZero).isZero = true := by
  obtain ⟨-, hkey, -⟩ := F64.mul_finite ha (by decide : F64.posZero.isFinite = true)
  rw [F64.toUnits_posZero, mul_zero] at hkey
  have hmag := F64.mag_of_key hkey
  rw [Int.natAbs_zero, Format.roundMag_zero _ binary64_prec _ (by positivity)] at hmag
  exact decide_eq_true hmag

/-- `+0.0` plus or minus a zero of either sign is `+0.0` (R9, log 14). -/
theorem F64.posZero_add_sub_mul_posZero {a : F64} (ha : a.isFinite = true) :
    F64.posZero.add (a.mul .posZero) = .posZero ∧ F64.posZero.sub (a.mul .posZero) = .posZero := by
  rcases F64.eq_zero_of_isZero (F64.isZero_mul_posZero ha) with h | h <;> rw [h] <;> decide

end Sys2Proof

namespace Sys2Proof.Machine

/-- Settles O46: the writes of R141 to R145 in their order. -/
theorem substepFormula : Obligations.SubstepFormula := by
  rintro k u f x n0 t0 n1 t1 n2 t2 n3 rfl rfl rfl rfl rfl rfl rfl rfl
  rfl

/-! ### A NaN in the feedback tap (R150) -/

/-- The new output of a stage, in the form the four of R141 to R144 share: `x` its input, `d` its delay, `y` its old
saturated output. -/
theorem stageOutput_nan {c : Cfg} {d t x y : F64} (h : x.isNaN = true) :
    (d.add (t.mul ((sat c (x.mul c.thermal)).sub y))).isNaN = true := by
  have hsat : (sat c (x.mul c.thermal)).isNaN = true := sat_isNaN (F64.not_finite_of_nan (F64.mul_nan (.inl h)))
  exact F64.add_nan (.inr (F64.mul_nan (.inr (F64.sub_nan (.inl hsat)))))

/-- From the tap through the feedback input and the stages 0 to 3 to the new tap. -/
theorem substep_delay5_nan (c : Cfg) (k : Coeffs) (u : F64) {f : Filter} (h : f.delay5.isNaN = true) :
    (substep c k u f).delay5.isNaN = true := by
  have hinput : (u.sub (k.resQuad.mul f.delay5)).isNaN = true := F64.sub_nan (.inr (F64.mul_nan (.inr h)))
  have hstage0 : (stage0Step c k u f).stage0.isNaN = true := stageOutput_nan hinput
  have hstage1 : (stage1Step c k (stage0Step c k u f)).stage1.isNaN = true := stageOutput_nan hstage0
  have hstage2 : (stage2Step c k (stage1Step c k (stage0Step c k u f))).stage2.isNaN = true := stageOutput_nan hstage1
  have hstage3 : (stage3Step c k (stage2Step c k (stage1Step c k (stage0Step c k u f)))).stage3.isNaN = true :=
    stageOutput_nan hstage2
  exact F64.div_nan (.inl (F64.add_nan (.inl hstage3)))

theorem substeps_delay5_nan (c : Cfg) (k : Coeffs) (u : F64) (j : Nat) {f : Filter} (h : f.delay5.isNaN = true) :
    (substeps c k u j f).delay5.isNaN = true := by
  induction j generalizing f with
  | zero => exact h
  | succ j ih => exact ih (substep_delay5_nan c k u h)

theorem sampleNext_delay5_nan (c : Cfg) {r : Regs} (x : F32) (h : r.filter.delay5.isNaN = true) :
    (sampleNext c r x).filter.delay5.isNaN = true :=
  substeps_delay5_nan c r.coeffs _ oversampling h

theorem sampleLoop_nan (c : Cfg) {r : Regs} (xs : List F32) (h : r.filter.delay5.isNaN = true) :
    (∀ v ∈ (sampleLoop c r xs).2, v.isNaN = true) ∧ (sampleLoop c r xs).1.filter.delay5.isNaN = true := by
  induction xs generalizing r with
  | nil => exact ⟨nofun, h⟩
  | cons x xs ih =>
    have hnext := sampleNext_delay5_nan c x h
    obtain ⟨hout, htap⟩ := ih hnext
    exact ⟨List.forall_mem_cons.mpr ⟨F64.narrow_nan hnext, hout⟩, htap⟩

/-- Settles O50: the prologue leaves the filter alone, and every sample keeps the NaN and narrows it. -/
theorem naNInTheFeedbackTapStays : Obligations.NaNInTheFeedbackTapStays := by
  intro s r samples hb hlen htap
  obtain ⟨hout, htap'⟩ := sampleLoop_nan cfg (r := prologue cfg r) samples htap
  obtain ⟨-, -, -, hcount⟩ := processSamples_frame cfg r samples
  exact ⟨_, _, execProcessBlockAt_ready hb hlen, hcount.trans hlen, hout, htap'⟩

/-! ### Silence (R151) -/

/-- Finite coefficients make zeros of the feedback and of every increment. -/
theorem substep_zero {k : Coeffs} (htune : k.tune.isFinite = true) (hres : k.resQuad.isFinite = true) :
    substep cfg k .posZero .zero = .zero := by
  obtain ⟨-, hsat, -⟩ := Filter.zero_consistent
  replace hsat : F64.posZero = sat cfg (F64.posZero.mul cfg.thermal) := hsat
  have hinput : F64.posZero = F64.posZero.sub (k.resQuad.mul .posZero) := (F64.posZero_add_sub_mul_posZero hres).2.symm
  have hstage : F64.posZero = F64.posZero.add (k.tune.mul (F64.posZero.sub .posZero)) :=
    (F64.posZero_add_sub_mul_posZero htune).1.symm
  have hstage0 : F64.posZero = F64.posZero.add (k.tune.mul ((sat cfg (F64.posZero.mul cfg.thermal)).sub .posZero)) := by
    rw [← hsat]; exact hstage
  have hstage3 : F64.posZero = F64.posZero.add (k.tune.mul (F64.posZero.sub (sat cfg (F64.posZero.mul cfg.thermal)))) := by
    rw [← hsat]; exact hstage
  have htap : (F64.posZero.add .posZero).div .two = .posZero := by decide +kernel
  calc substep cfg k .posZero .zero = { Filter.zero with delay5 := (F64.posZero.add .posZero).div .two } :=
        substepFormula k .posZero .zero _ _ _ _ _ _ _ _ hinput hstage0 hsat hstage hsat hstage hsat hstage3
    _ = .zero := by rw [htap]; rfl

theorem substeps_zero {k : Coeffs} (htune : k.tune.isFinite = true) (hres : k.resQuad.isFinite = true) (j : Nat) :
    substeps cfg k .posZero j .zero = .zero := by
  induction j with
  | zero => rfl
  | succ j ih => rw [substeps, substep_zero htune hres, ih]

/-- The tune is bounded for every lawful `EXP` (U1); the resonance gain has no `EXP` in it. -/
theorem afterInit_coeffs_finite :
    (Regs.afterInit cfg).coeffs.tune.isFinite = true ∧ (Regs.afterInit cfg).coeffs.resQuad.isFinite = true := by
  have hcutoff : F32.le .posZero cfg.cutoffReset = true := by decide
  refine ⟨(coef_tune_within hcutoff cfg.resReset).finite, ?_⟩
  rw [Regs.afterInit, coef_resQuad]
  decide +kernel

/-- A sample `+0.0` leaves every register after `INIT` as it was. -/
theorem sampleNext_afterInit_posZero : sampleNext cfg (Regs.afterInit cfg) .posZero = Regs.afterInit cfg := by
  obtain ⟨htune, hres⟩ := afterInit_coeffs_finite
  obtain ⟨-, hout, hdc⟩ := dcBlockerKeepsNonFinite
  have hfilter : substeps cfg (Regs.afterInit cfg).coeffs (dcbOut cfg .zero .posZero).widen oversampling .zero = .zero := by
    have hwiden : F32.posZero.widen = .posZero := by decide +kernel
    rw [DcBlocker.zero, hout, hwiden]
    exact substeps_zero htune hres oversampling
  exact congrArg₂ (fun dc filter => { Regs.afterInit cfg with dc := dc, filter := filter }) hdc hfilter

/-- After `INIT` each live value is its target, so the prologue changes nothing. -/
theorem prologue_afterInit : prologue cfg (Regs.afterInit cfg) = Regs.afterInit cfg := by
  have hcontrol : smooth cfg (Regs.afterInit cfg).control = (Regs.afterInit cfg).control := by decide +kernel
  rw [prologue, hcontrol]
  rfl

/-- A sample that changes no register gives the same output however often it comes. -/
theorem sampleLoop_replicate {c : Cfg} {r : Regs} {x : F32} (h : sampleNext c r x = r) (n : Nat) :
    sampleLoop c r (List.replicate n x) = (r, List.replicate n r.filter.delay5.narrow) := by
  induction n with
  | zero => rfl
  | succ n ih => rw [List.replicate_succ, List.replicate_succ, sampleLoop, sampleOut, h, ih]

/-- Settles O49: the registers after `INIT` are a fixed point of the prologue and of a sample `+0.0`. -/
theorem silenceGivesSilence : Obligations.SilenceGivesSilence := by
  intro s hs
  have hready : s.block = .ready (Regs.afterInit cfg) := hs
  have hnarrow : (Regs.afterInit cfg).filter.delay5.narrow = .posZero := by decide +kernel
  have hsamples : processSamples cfg (Regs.afterInit cfg) (List.replicate 128 .posZero) =
      (Regs.afterInit cfg, List.replicate 128 .posZero) := by
    rw [processSamples, prologue_afterInit, sampleLoop_replicate sampleNext_afterInit_posZero, hnarrow]
  have hlen : (List.replicate 128 F32.posZero).length = cfg.n := List.length_replicate.trans cfg_n.symm
  have hresponse : (List.replicate 128 F32.posZero).map (fun v => v.bits) = List.replicate 128 0#32 := List.map_replicate
  have hexec := execProcessBlockAt_ready hready hlen
  rw [hsamples, State.answer, ← hready, hresponse] at hexec
  exact hexec

end Sys2Proof.Machine
end

section
/-! The registers that the envelope commands write (spec/45_envelope_generator.md R161 to R176): O21, O22, O23, O25, O26, O27,
O28 and O33. -/

namespace Sys2Proof.Machine

/-! ### The commands that only write (R161 to R165) -/

/-- Settles O22: both commands are one write. -/
theorem setDecayAndSustainResult : Obligations.SetDecayAndSustainResult :=
  fun _ _ _ _ hb => ⟨State.command_ready _ hb, State.command_ready _ hb⟩

/-- Settles O23: the writes of R161. -/
theorem trigAttackResult : Obligations.TrigAttackResult :=
  fun _ _ _ _ _ _ hb => State.command_ready _ hb

/-- Settles O25: the writes of R162. -/
theorem trigReleaseResult : Obligations.TrigReleaseResult :=
  fun _ _ _ _ _ hb => State.command_ready _ hb

/-- Settles O21, by the flag; with 0 the coefficients are computed from the live values, which are not written. -/
theorem setEnvActiveResult : Obligations.SetEnvActiveResult := by
  intro s r flag hb
  cases flag with
  | false => exact State.command_ready (setEnvActive cfg false) hb
  | true => exact State.command_ready (setEnvActive cfg true) hb

/-! ### `ENV_STEP` (R167 to R174) -/

theorem Phase.moves_iff {p : Phase} : p.moves = true ↔ p = .attack ∨ p = .decay ∨ p = .release := by
  cases p <;> simp [Phase.moves]

theorem envStep_of_moves (c : Cfg) (t : F64) {r : Regs} (h : r.env.phase.moves = true) :
    envStep c t r = envPropagate c { r with env := envRun r.env t } := if_pos h

theorem envStep_of_not_moves (c : Cfg) (t : F64) {r : Regs} (h : r.env.phase.moves = false) : envStep c t r = r :=
  if_neg (by simp [h])

@[simp] theorem envPropagate_env (c : Cfg) (r : Regs) : (envPropagate c r).env = r.env := by
  unfold envPropagate
  split <;> rfl

theorem envStep_env (c : Cfg) (t : F64) {r : Regs} (h : r.env.phase.moves = true) :
    (envStep c t r).env = envRun r.env t := by
  rw [envStep_of_moves c t h, envPropagate_env]

theorem envProgress_of_done {e : Envelope} {t : F64} (h : envDone e t = true) : envProgress e t = .one := if_pos h

theorem envProgress_of_not_done {e : Envelope} {t : F64} (h : envDone e t = false) : envProgress e t = envRatio e t :=
  if_neg (by simp [h])

theorem envRun_of_done {e : Envelope} {t : F64} (h : envDone e t = true) :
    envRun e t = envComplete { e with cur := interpolate e.start e.target .one } t := by
  rw [envRun, if_pos h, envProgress_of_done h]

theorem envRun_of_not_done {e : Envelope} {t : F64} (h : envDone e t = false) :
    envRun e t = { e with cur := interpolate e.start e.target (envRatio e t) } := by
  rw [envRun, if_neg (by simp [h]), envProgress_of_not_done h]

@[simp] theorem envComplete_cur (e : Envelope) (t : F64) : (envComplete e t).cur = e.cur := by
  unfold envComplete
  split <;> rfl

@[simp] theorem envRun_cur (e : Envelope) (t : F64) :
    (envRun e t).cur = interpolate e.start e.target (envProgress e t) := by
  unfold envRun
  split
  · rw [envComplete_cur]
  · rfl

/-- In a phase that moves an active envelope hands its cutoff to the cutoff target. -/
theorem envStep_targetCutoff (c : Cfg) (t : F64) {r : Regs} (h : r.env.phase.moves = true) (ha : r.env.active = true) :
    (envStep c t r).control.targetCutoff = (envRun r.env t).cur := by
  rw [envStep_of_moves c t h, envPropagate, if_pos (by simp [ha])]
  rfl

/-- The column `ADVANCE_ENV` of R176, for a step at the end of a phase. -/
def Phase.afterEnd : Phase → Phase
  | .idle => .idle
  | .attack => .decay
  | .decay => .held
  | .held => .held
  | .release => .idle

theorem envComplete_phase (e : Envelope) (t : F64) : (envComplete e t).phase = e.phase.afterEnd := by
  unfold envComplete
  split <;> simp [*, Phase.afterEnd]

theorem envRun_phase (e : Envelope) (t : F64) :
    (envRun e t).phase = if envDone e t then e.phase.afterEnd else e.phase := by
  unfold envRun
  split
  · rw [envComplete_phase]
  · rfl

theorem Phase.afterEnd_of_not_moves {p : Phase} (h : p.moves = false) : p.afterEnd = p := by
  cases p with
  | idle | held => rfl
  | attack | decay | release => cases h

theorem envStep_phase (c : Cfg) (t : F64) (r : Regs) :
    (envStep c t r).env.phase = if envDone r.env t then r.env.phase.afterEnd else r.env.phase := by
  cases hm : r.env.phase.moves with
  | true => rw [envStep_env c t hm, envRun_phase]
  | false => rw [envStep_of_not_moves c t hm, Phase.afterEnd_of_not_moves hm, ite_self]

theorem exec_advanceEnv {s : State} {r : Regs} (t : F64) (hb : s.block = .ready r) :
    exec (.advanceEnv t) s = .next (s.answer (envStep cfg t r) []) := State.command_ready _ hb

/-- `ADVANCE_ENV` in a phase that moves: the envelope registers of `envRun`, and their propagation while active. -/
theorem exec_advanceEnv_of_moves {s : State} {r : Regs} (t : F64) (hb : s.block = .ready r)
    (hm : r.env.phase.moves = true) : exec (.advanceEnv t) s = .next
      { s with
        block := .ready
          (if r.env.active then
            { r with
              env := envRun r.env t
              control := { r.control with targetCutoff := (envRun r.env t).cur }
              coeffs := coef cfg r.control.liveCutoff r.control.liveRes }
          else { r with env := envRun r.env t })
        response := [0x00000000#32] } := by
  rw [exec_advanceEnv t hb, envStep_of_moves cfg t hm, envPropagate, envRun_active]
  rfl

/-- Settles O26: neither phase moves. -/
theorem advanceIsANoOpInIdleAndHeld : Obligations.AdvanceIsANoOpInIdleAndHeld := by
  intro s r t hb hphase
  have hm : r.env.phase.moves = false := by rcases hphase with h | h <;> rw [h] <;> rfl
  rw [exec_advanceEnv t hb, envStep_of_not_moves cfg t hm, State.answer, ← hb]
  rfl

/-- Settles O27: a progress that is not at least 1 is not clamped, and the phase does not end. -/
theorem advanceInsideAPhase : Obligations.AdvanceInsideAPhase := by
  rintro s r t hb hphase _ _ rfl hdone rfl
  rw [exec_advanceEnv_of_moves t hb (Phase.moves_iff.mpr hphase), envRun_of_not_done hdone]
  rfl

/-- Settles O28, by the phase that ends; the propagation takes the final sample, which the transition leaves alone. -/
theorem advanceCompletesAPhase : Obligations.AdvanceCompletesAPhase := by
  rintro s r t hb hphase hdone cur env rfl henv
  have hrun : env = envRun r.env t := by
    rw [henv, envRun_of_done hdone, envComplete]
    rcases hphase with h | h | h <;> simp only [h] <;> rfl
  rw [exec_advanceEnv_of_moves t hb (Phase.moves_iff.mpr hphase), envRun_cur, envProgress_of_done hdone, hrun]
  rfl

/-- Settles O33, command by command; only `ADVANCE_ENV` looks at the phase it leaves. -/
theorem phaseTransitionTable : Obligations.PhaseTransitionTable := by
  intro i s t r hb hw h
  rw [exec_ready i hb, if_pos hw] at h
  cases h
  refine ⟨_, rfl, ?_⟩
  cases i with
  | advanceEnv time => exact envStep_phase cfg time r
  | setEnvActive flag => cases flag <;> rfl
  | processBlock samples =>
    obtain ⟨-, -, henv, -⟩ := processSamples_frame cfg r samples
    exact congrArg Envelope.phase henv
  | _ => rfl

end Sys2Proof.Machine
end

section
/-! The ramp of the envelope generator as numbers (spec/45_envelope_generator.md R161, R168, R169, R177 and R179): O24 and O29
to O32. Between finite cutoffs nothing overflows in binary64, so every point of the ramp is the rounding of an exact one. -/

namespace Sys2Proof

/-! ### The doubled peak (R161) -/

/-- Twice the value of a pattern is the value of a pattern, which need not be finite. -/
theorem Format.exists_units_double (f : Format) (hp : 1 ≤ f.prec) (m : Nat) : ∃ k, f.units k = 2 * f.units m := by
  obtain ⟨shift, n, rfl, hn, hk⟩ := f.exists_shift m
  have htwice : 2 * 2 ^ (f.prec - 1) = 2 ^ f.prec := by rw [← pow_succ', Nat.sub_add_cancel hp]
  obtain ⟨k, hu⟩ := f.exists_units_eq hp (shift + 1) n (htwice ▸ hn)
  refine ⟨k, hu.trans ?_⟩
  rw [f.units_shift shift n hn hk, pow_succ]
  ring

/-- The product is exact unless the doubled value has no finite pattern; then the exponent is already the greatest. -/
theorem F32.two_mul_finite {v : F32} (h : v.isFinite = true) :
    (F32.two.mul v).neg? = v.neg? ∧
      (((F32.two.mul v).isFinite = true ∧ (F32.two.mul v).toUnits = 2 * v.toUnits) ∨
        ((F32.two.mul v).mag = 0x7F800000 ∧ 0x7F000000 ≤ v.mag)) := by
  obtain ⟨-, hkey, hsign⟩ := F32.mul_finite (by decide : F32.two.isFinite = true) h
  replace hsign : (F32.two.mul v).neg? = v.neg? := by rw [hsign]; exact Bool.false_bne _
  refine ⟨hsign, ?_⟩
  obtain ⟨k, hk⟩ := binary32.exists_units_double (by decide) v.mag
  have htwo : F32.two.toUnits.natAbs = 2 * 2 ^ binary32.unit := by decide +kernel
  have hmag : (F32.two.mul v).mag = min k binary32.infMag := by
    rw [F32.mag_of_key hkey, Int.natAbs_mul, htwo, F32.toUnits_natAbs, Nat.mul_right_comm, ← hk,
      binary32.roundMag_units binary32_prec _ _ (by positivity)]
  rcases Nat.lt_or_ge k binary32.infMag with hlt | hge
  · rw [min_eq_left hlt.le] at hmag
    refine .inl ⟨F32.isFinite_iff.mpr (hmag ▸ hlt), ?_⟩
    rw [F32.toUnits_eq, F32.toUnits_eq, hsign, hmag, hk, ← Bool.false_bne v.neg?, signedUnits_mul]
    simp [signedUnits_false]
  · rw [min_eq_right hge, binary32_infMag] at hmag
    refine .inr ⟨hmag, ?_⟩
    have hhalf : binary32.units binary32.infMag = 2 * binary32.units 0x7F000000 := by decide +kernel
    have hmono := binary32.units_strictMono.monotone hge
    exact binary32.units_strictMono.le_iff_le.mp (by omega)

/-! ### Order and infinities -/

/-- Only the positive infinity is not negative. -/
theorem F64.neg?_of_posZero_le_inf {a : F64} (ha : a.isInf = true) (h : F64.le .posZero a = true) : a.neg? = false := by
  obtain ⟨-, -, hkey⟩ := F64.le_iff.mp h
  have hzero : F64.posZero.key = 0 := by decide
  have hmag : a.mag ≠ 0 := by rw [F64.isInf_iff.mp ha]; decide
  rw [Bool.eq_false_iff, Ne, F64.neg?_iff_key hmag]
  omega

theorem F64.neg?_of_toUnits_pos {a : F64} (h : 0 < a.toUnits) : a.neg? = false := by
  rw [Bool.eq_false_iff]
  intro hs
  rw [F64.toUnits_eq, hs, signedUnits, if_pos rfl] at h
  omega

/-- The positive infinity is at least everything that is no NaN. -/
theorem F64.le_posInf {a b : F64} (hb : b.isInf = true) (hs : b.neg? = false) (ha : a.isNaN = false) :
    F64.le a b = true := by
  obtain ⟨-, hgreatest⟩ := F64.compare_inf hb ha
  exact (hgreatest hs).1

theorem F64.finite_or_inf {a : F64} (h : a.isNaN = false) : a.isFinite = true ∨ a.isInf = true := by
  by_cases hf : a.isFinite = true
  · exact .inl hf
  · exact .inr ((F64.inf_or_nan (Bool.eq_false_iff.mpr hf)).resolve_right (by simp [h]))

theorem F64.le_of_ge_eq_false {a b : F64} (ha : a.isNaN = false) (hb : b.isNaN = false) (h : a.ge b = false) :
    F64.le a b = true := by
  have hkey : ¬b.key ≤ a.key := fun hle => by simp [F64.ge, F64.le_iff.mpr ⟨hb, ha, hle⟩] at h
  exact F64.le_iff.mpr ⟨ha, hb, (not_le.mp hkey).le⟩

/-! ### Differences of finite numbers -/

section

variable {a b : F64} (ha : a.isFinite = true) (hb : b.isFinite = true)

include ha in
theorem F64.isZero_sub_self : (a.sub a).isZero = true := by
  obtain ⟨-, hkey⟩ := F64.sub_finite ha ha
  rw [sub_self, Format.signedRound_zero _ binary64_prec _ one_pos] at hkey
  exact decide_eq_true (by rw [← F64.key_natAbs, hkey]; rfl)

include ha hb

theorem F64.posZero_le_sub (h : F64.le a b = true) : F64.le .posZero (b.sub a) = true := by
  obtain ⟨hnan, hkey⟩ := F64.sub_finite hb ha
  rw [(F64.compare_finite ha hb).2] at h
  refine F64.le_iff.mpr ⟨by decide, hnan, ?_⟩
  rw [hkey, Format.signedRound, if_neg (by omega)]
  exact Int.natCast_nonneg _

theorem F64.sub_le_posZero (h : F64.le a b = true) : F64.le (a.sub b) .posZero = true := by
  obtain ⟨hnan, hkey⟩ := F64.sub_finite ha hb
  rw [(F64.compare_finite ha hb).2] at h
  refine F64.le_iff.mpr ⟨hnan, by decide, ?_⟩
  have hzero : F64.posZero.key = binary64.signedRound 0 1 := by decide +kernel
  rw [hkey, hzero]
  exact binary64.signedRound_mono binary64_prec one_pos one_pos (by omega)

/-- With gradual underflow the difference of unequal numbers is no zero. -/
theorem F64.sub_pos (h : F64.lt a b = true) : (b.sub a).isZero = false ∧ (b.sub a).neg? = false := by
  obtain ⟨-, hkey⟩ := F64.sub_finite hb ha
  rw [(F64.compare_finite ha hb).1] at h
  have hleast : binary64.units 1 = 1 := by decide +kernel
  have hpos : 1 ≤ (b.sub a).mag := by
    rw [F64.mag_of_key hkey]
    exact binary64.le_roundMag binary64_prec one_pos (by decide) (by rw [hleast]; omega)
  refine ⟨decide_eq_false (by omega), ?_⟩
  rw [Bool.eq_false_iff, Ne, F64.neg?_of_key hkey (by omega)]
  omega

end

/-! ### Products and quotients -/

/-- A product with a factor that is not positive falls as the other factor grows. -/
theorem F64.mul_le_mul_of_nonpos {d p q : F64} (hd : d.isFinite = true) (hp : p.isFinite = true) (hq : q.isFinite = true)
    (hd0 : F64.le d .posZero = true) (hpq : F64.le p q = true) : F64.le (d.mul q) (d.mul p) = true := by
  rw [(F64.compare_finite hd (by decide)).2, F64.toUnits_posZero] at hd0
  rw [(F64.compare_finite hp hq).2] at hpq
  obtain ⟨hnan, hkey, -⟩ := F64.mul_finite hd hq
  obtain ⟨hnan', hkey', -⟩ := F64.mul_finite hd hp
  have hunit : 0 < 2 ^ binary64.unit := by positivity
  have hproduct : d.toUnits * q.toUnits ≤ d.toUnits * p.toUnits := Int.mul_le_mul_of_nonpos_left hd0 hpq
  rw [F64.le_iff, hkey, hkey']
  exact ⟨hnan, hnan',
    binary64.signedRound_mono binary64_prec hunit hunit (mul_le_mul_of_nonneg_right hproduct (by positivity))⟩

/-- A datum is its own rounding. -/
theorem F64.signedRound_toUnits {a : F64} (h : a.isNaN = false) {den : Nat} (hd : 0 < den) :
    binary64.signedRound (a.toUnits * den) den = a.key := by
  rw [F64.toUnits_keyUnits, Format.signedRound_keyUnits _ binary64_prec _ (F64.key_le_inf h) _ hd]

theorem F64.key_mul_one {a : F64} (ha : a.isFinite = true) : (a.mul .one).key = a.key := by
  have hone : F64.one.toUnits = (2 ^ binary64.unit : Nat) := by decide +kernel
  obtain ⟨-, hkey, -⟩ := F64.mul_finite ha (by decide : F64.one.isFinite = true)
  rw [hkey, hone, F64.signedRound_toUnits (F64.not_nan_of_finite ha) (by positivity)]

theorem F64.div_not_nan {a c : F64} (ha : a.isNaN = false) (hc : c.isFinite = true) (hpos : 0 < c.toUnits) :
    (a.div c).isNaN = false := by
  rcases F64.finite_or_inf ha with h | h
  · exact (F64.div_finite_pos h hc hpos).1
  · exact F64.not_nan_of_inf (F64.div_inf_finite h hc).1

/-- `F64.div_le_div` with an infinite dividend too, as a difference of times can be. -/
theorem F64.div_le_div_of_nonneg {a b c : F64} (ha0 : F64.le .posZero a = true) (hab : F64.le a b = true)
    (hc : c.isFinite = true) (hpos : F64.lt .posZero c = true) : F64.le (a.div c) (b.div c) = true := by
  obtain ⟨ha, hb, -⟩ := F64.le_iff.mp hab
  rw [(F64.compare_finite (by decide) hc).1, F64.toUnits_posZero] at hpos
  rcases F64.finite_or_inf hb with hfin | hinf
  · have hafin : a.isFinite = true := F64.Within.finite ⟨by decide, hfin, ha0, hab⟩
    exact F64.div_le_div hafin hfin hc hpos hab
  · obtain ⟨hquot, hsign⟩ := F64.div_inf_finite hinf hc
    rw [F64.neg?_of_posZero_le_inf hinf (F64.le_trans ha0 hab), F64.neg?_of_toUnits_pos hpos] at hsign
    exact F64.le_posInf hquot hsign (F64.div_not_nan ha hc hpos)

theorem F64.posZero_le_div {a c : F64} (ha0 : F64.le .posZero a = true) (hc : c.isFinite = true)
    (hpos : F64.lt .posZero c = true) : F64.le .posZero (a.div c) = true := by
  refine F64.le_trans ?_ (F64.div_le_div_of_nonneg (F64.le_refl (by decide)) ha0 hc hpos)
  rw [(F64.compare_finite (by decide) hc).1, F64.toUnits_posZero] at hpos
  obtain ⟨hnan, hkey⟩ := F64.div_finite_pos (by decide : F64.posZero.isFinite = true) hc hpos
  rw [F64.toUnits_posZero, Int.zero_mul, Format.signedRound_zero _ binary64_prec _ (by omega)] at hkey
  exact F64.le_iff.mpr ⟨by decide, hnan, hkey.ge⟩

/-- A difference does not exceed in magnitude the sum of greater numbers that are not negative. -/
theorem F64.mag_sub_mono {a b p q : F64} (hp : p.isFinite = true) (hq : q.isFinite = true) (hsp : p.neg? = false)
    (hsq : q.neg? = false) (ha : a.mag ≤ p.mag) (hb : b.mag ≤ q.mag) : (a.sub b).mag ≤ (p.add q).mag := by
  have hbq : b.neg.mag ≤ q.mag := (F64.mag_neg b).trans_le hb
  have hfa := F64.isFinite_of_mag_le ha hp
  obtain ⟨-, hsub⟩ := F64.sub_finite hfa (F64.isFinite_of_mag_le hb hq)
  obtain ⟨-, hadd⟩ := F64.add_finite hfa (F64.isFinite_of_mag_le hbq hq)
  have hunits : b.neg.toUnits = -b.toUnits := by
    rw [F64.toUnits_eq, F64.toUnits_eq, F64.neg?_neg, F64.mag_neg, signedUnits_not]
  rw [hunits, ← sub_eq_add_neg] at hadd
  rw [F64.mag_of_key hsub, ← F64.mag_of_key hadd]
  exact F64.mag_add_mono hp hq hsp hsq ha hbq

theorem F64.within_one : F64.Within .posZero .one .one := ⟨by decide, by decide, by decide, by decide⟩

/-! ### Conversions -/

def F32.greatestFinite : F32 := ⟨0x7F7FFFFF#32⟩

/-- The greatest finite number is the greatest in magnitude when widened too. -/
theorem F32.mag_widen_le {v : F32} (h : v.isFinite = true) : v.widen.mag ≤ F32.greatestFinite.widen.mag := by
  have hmag : v.mag ≤ F32.greatestFinite.mag := by
    have hgreatest : F32.greatestFinite.mag = binary32.infMag - 1 := by decide +kernel
    have := F32.isFinite_iff.mp h
    omega
  obtain ⟨-, -, hunits⟩ := F32.widen_finite h
  obtain ⟨-, -, hunits'⟩ := F32.widen_finite (by decide : F32.greatestFinite.isFinite = true)
  rw [← binary64.units_strictMono.le_iff_le, hunits, hunits']
  exact Nat.mul_le_mul_right _ (binary32.units_strictMono.monotone hmag)

theorem F64.narrow_le_narrow {a b : F64} (ha : a.isFinite = true) (hb : b.isFinite = true) (h : F64.le a b = true) :
    F32.le a.narrow b.narrow = true := by
  rw [(F64.compare_finite ha hb).2] at h
  obtain ⟨hnan, hkey⟩ := F64.narrow_finite ha
  obtain ⟨hnan', hkey'⟩ := F64.narrow_finite hb
  rw [F32.le_iff, hkey, hkey']
  exact ⟨hnan, hnan', binary32.signedRound_mono binary32_prec (by positivity) (by positivity)
    (mul_le_mul_of_nonneg_right h (by positivity))⟩

end Sys2Proof

namespace Sys2Proof.Machine

/-- Settles O24: the target is the product with 2.0. -/
theorem peakDoublingIsExactUnlessItOverflows : Obligations.PeakDoublingIsExactUnlessItOverflows :=
  fun _ r start peak attack now hb hpeak =>
    ⟨_, trigAttack start peak attack now r, State.command_ready _ hb, rfl, F32.two_mul_finite hpeak⟩

/-! ### The progress (R168, R177) -/

/-- A zero duration at the start time: the progress is the NaN of a zero by a zero. -/
theorem envRatio_nan_of_zero {e : Envelope} (ht0 : e.t0.isFinite = true) (hdur : e.dur = .posZero) :
    (envRatio e e.t0).isNaN = true := by
  unfold envRatio
  exact F64.div_zero_zero (F64.isZero_sub_self ht0) (by rw [hdur]; decide)

/-- A NaN progress ends no phase. -/
theorem envDone_of_nan {e : Envelope} {t : F64} (h : (envRatio e t).isNaN = true) : envDone e t = false := by
  obtain ⟨-, -, -, -, hle⟩ := F64.nan_operand (a := .one) (.inr h)
  exact hle

theorem interpolate_nan {start target : F32} {p : F64} (h : p.isNaN = true) : (interpolate start target p).isNaN = true :=
  F64.narrow_nan (F64.add_nan (.inr (F64.mul_nan (.inr h))))

/-- A zero duration after the start time: a positive difference by a zero is the positive infinity, also when the difference
overflows. -/
theorem envDone_of_zero {e : Envelope} {t : F64} (ht0 : e.t0.isFinite = true) (ht : t.isFinite = true)
    (hlt : F64.lt e.t0 t = true) (hdur : e.dur = .posZero) : envDone e t = true := by
  obtain ⟨h0, hsign⟩ := F64.sub_pos ht0 ht hlt
  have hquot : (envRatio e t).isInf = true ∧ (envRatio e t).neg? = ((t.sub e.t0).neg? != e.dur.neg?) := by
    have hzero : e.dur.isZero = true := by rw [hdur]; decide
    rcases F64.finite_or_inf (F64.sub_finite ht ht0).1 with h | h
    · exact F64.div_finite_zero h h0 hzero
    · exact F64.div_inf_finite h (F64.finite_of_zero hzero)
  obtain ⟨hinf, hneg⟩ := hquot
  rw [hsign, hdur] at hneg
  exact F64.le_posInf hinf hneg (by decide)

/-- A progress that is not negative is clamped between 0 and 1. -/
theorem envProgress_within {e : Envelope} {t : F64} (h : F64.le .posZero (envRatio e t) = true) :
    F64.Within .posZero .one (envProgress e t) := by
  obtain ⟨-, hnan, -⟩ := F64.le_iff.mp h
  cases hd : envDone e t with
  | true => rw [envProgress_of_done hd]; exact F64.within_one
  | false =>
    rw [envProgress_of_not_done hd]
    exact ⟨by decide, by decide, h, F64.le_of_ge_eq_false hnan (by decide) hd⟩

theorem envProgress_mono {e : Envelope} {t1 t2 : F64} (h0 : F64.le .posZero (envRatio e t1) = true)
    (h : F64.le (envRatio e t1) (envRatio e t2) = true) : F64.le (envProgress e t1) (envProgress e t2) = true := by
  cases hd2 : envDone e t2 with
  | true => rw [envProgress_of_done hd2]; exact (envProgress_within h0).le_hi
  | false =>
    have hd1 : envDone e t1 = false := by
      rw [Bool.eq_false_iff] at hd2 ⊢
      exact fun hd1 => hd2 (F64.le_trans hd1 h)
    rwa [envProgress_of_not_done hd1, envProgress_of_not_done hd2]

/-- With a positive duration the unclamped progress is not negative from `envT0` on and grows with time. -/
theorem envRatio_mono {e : Envelope} {t1 t2 : F64} (ht0 : e.t0.isFinite = true) (hdur : e.dur.isFinite = true)
    (hpos : F64.lt .posZero e.dur = true) (ht1 : t1.isFinite = true) (ht2 : t2.isFinite = true)
    (h1 : F64.le e.t0 t1 = true) (h2 : F64.le t1 t2 = true) :
    F64.le .posZero (envRatio e t1) = true ∧ F64.le (envRatio e t1) (envRatio e t2) = true := by
  have h0 := F64.posZero_le_sub ht0 ht1 h1
  have hsub := F64.sub_le_sub ht1 ht2 ht0 ht0 h2 (F64.le_refl (F64.not_nan_of_finite ht0))
  exact ⟨F64.posZero_le_div h0 hdur hpos, F64.div_le_div_of_nonneg h0 hsub hdur hpos⟩

/-! ### The ramp (R169) -/

/-- Nothing of the ramp between finite cutoffs overflows: each magnitude is at most that of the same operation on the
greatest binary32 number. -/
theorem interpolate_terms_finite {start target : F32} {p : F64} (hs : start.isFinite = true) (ht : target.isFinite = true)
    (hp : F64.Within .posZero .one p) :
    (target.widen.sub start.widen).isFinite = true ∧ ((target.widen.sub start.widen).mul p).isFinite = true ∧
      (start.widen.add ((target.widen.sub start.widen).mul p)).isFinite = true := by
  have hpmag : p.mag ≤ F64.one.mag := by
    obtain ⟨-, -, hlo⟩ := F64.le_iff.mp hp.lo_le
    obtain ⟨-, -, hhi⟩ := F64.le_iff.mp hp.le_hi
    have hzero : F64.posZero.key = 0 := by decide
    have hone : F64.one.key = F64.one.mag := by decide
    have := p.key_natAbs
    omega
  have hdiff := F64.mag_sub_mono (by decide +kernel) (by decide +kernel) (by decide +kernel) (by decide +kernel)
    (F32.mag_widen_le ht) (F32.mag_widen_le hs)
  have hprod := F64.mag_mul_mono (by decide +kernel) (by decide +kernel) hdiff hpmag
  have hsum := F64.mag_add_mono (by decide +kernel) (by decide +kernel) (by decide +kernel) (by decide +kernel)
    (F32.mag_widen_le hs) hprod
  exact ⟨F64.isFinite_of_mag_le hdiff (by decide +kernel), F64.isFinite_of_mag_le hprod (by decide +kernel),
    F64.isFinite_of_mag_le hsum (by decide +kernel)⟩

/-- Along a ramp the points follow the progress, up or down. -/
theorem interpolate_mono {start target : F32} {p q : F64} (hs : start.isFinite = true) (ht : target.isFinite = true)
    (hp : F64.Within .posZero .one p) (hq : F64.Within .posZero .one q) (hpq : F64.le p q = true) :
    (F32.le start target = true → F32.le (interpolate start target p) (interpolate start target q) = true) ∧
      (F32.le target start = true → F32.le (interpolate start target q) (interpolate start target p) = true) := by
  obtain ⟨hdiff, hprod, hsum⟩ := interpolate_terms_finite hs ht hp
  obtain ⟨-, hprod', hsum'⟩ := interpolate_terms_finite hs ht hq
  obtain ⟨hws, -⟩ := F32.widen_finite hs
  obtain ⟨hwt, -⟩ := F32.widen_finite ht
  have hstart := F64.le_refl (F64.not_nan_of_finite hws)
  refine ⟨fun h => ?_, fun h => ?_⟩
  · have hnonneg := F64.posZero_le_sub hws hwt (F32.widen_le_widen hs ht h)
    have hle := F64.mul_le_mul hdiff hdiff hp.finite hq.finite (F64.le_refl (F64.not_nan_of_finite hdiff)) hpq hnonneg
      hp.lo_le
    exact F64.narrow_le_narrow hsum hsum' (F64.add_le_add hws hws hprod hprod' hstart hle)
  · have hnonpos := F64.sub_le_posZero hwt hws (F32.widen_le_widen ht hs h)
    have hle := F64.mul_le_mul_of_nonpos hdiff hp.finite hq.finite hnonpos hpq
    exact F64.narrow_le_narrow hsum' hsum (F64.add_le_add hws hws hprod' hprod hstart hle)

/-- When the difference of the ends is exact, the sum at progress 1 is the target's exact value, which narrows to the
target. -/
theorem key_interpolate_one {start target : F32} (hs : start.isFinite = true) (ht : target.isFinite = true)
    (hexact : (target.widen.sub start.widen).toUnits = target.widen.toUnits - start.widen.toUnits) :
    (interpolate start target .one).key = target.key := by
  obtain ⟨hdiff, hprod, hsum⟩ := interpolate_terms_finite hs ht F64.within_one
  obtain ⟨hws, -⟩ := F32.widen_finite hs
  obtain ⟨hwt, -⟩ := F32.widen_finite ht
  have hprodUnits : ((target.widen.sub start.widen).mul .one).toUnits = target.widen.toUnits - start.widen.toUnits := by
    rw [F64.toUnits_keyUnits, F64.key_mul_one hdiff, ← F64.toUnits_keyUnits, hexact]
  have hsumUnits : (start.widen.add ((target.widen.sub start.widen).mul .one)).toUnits = target.widen.toUnits := by
    have hround := F64.signedRound_toUnits (F64.not_nan_of_finite hwt) one_pos
    rw [Nat.cast_one, mul_one] at hround
    rw [F64.toUnits_keyUnits, (F64.add_finite hws hprod).2, hprodUnits, add_sub_cancel, hround, ← F64.toUnits_keyUnits]
  rw [interpolate, (F64.narrow_finite hsum).2, hsumUnits, ← (F64.narrow_finite hwt).2,
    F32.narrow_widen (F32.not_nan_of_finite ht)]

/-! ### The statements -/

/-- Settles O29: the final sample stands at the target's place in the numeric order. -/
theorem finalSampleIsTheTarget : Obligations.FinalSampleIsTheTarget := by
  intro s r t hb hphase hdone hs ht hexact
  have hkey := key_interpolate_one hs ht hexact
  refine ⟨_, _, exec_advanceEnv t hb, rfl, ?_⟩
  rw [envStep_env cfg t (Phase.moves_iff.mpr hphase), envRun_cur, envProgress_of_done hdone, F32.toUnits_keyUnits, hkey,
    F32.isFinite_iff, ← F32.key_natAbs, hkey, F32.key_natAbs]
  exact ⟨F32.isFinite_iff.mp ht, (F32.toUnits_keyUnits _).symm⟩

/-- Settles O30: the progress grows with time and is clamped between 0 and 1, and the ramp follows the progress. -/
theorem envelopeIsMonotoneInTime : Obligations.EnvelopeIsMonotoneInTime := by
  intro s r t1 t2 hb hphase hs ht ht0 hdur hpos ht1 ht2 h1 h2
  have hm := Phase.moves_iff.mpr hphase
  obtain ⟨h0, hratio⟩ := envRatio_mono ht0 hdur hpos ht1 ht2 h1 h2
  refine ⟨_, _, _, _, exec_advanceEnv t1 hb, exec_advanceEnv t2 hb, rfl, rfl, ?_⟩
  rw [envStep_env cfg t1 hm, envStep_env cfg t2 hm, envRun_cur, envRun_cur]
  exact interpolate_mono hs ht (envProgress_within h0) (envProgress_within (F64.le_trans h0 hratio))
    (envProgress_mono h0 hratio)

/-- Settles O31: the progress is a NaN, so the phase goes on and the point of the ramp is a NaN. -/
theorem zeroDurationAtItsStartIsANaN : Obligations.ZeroDurationAtItsStartIsANaN := by
  intro s r hb hphase ht0 hdur
  have hm := Phase.moves_iff.mpr hphase
  have hratio := envRatio_nan_of_zero ht0 hdur
  have hdone := envDone_of_nan hratio
  have hcur : (envRun r.env r.env.t0).cur.isNaN = true := by
    rw [envRun_cur, envProgress_of_not_done hdone]
    exact interpolate_nan hratio
  refine ⟨_, _, exec_advanceEnv r.env.t0 hb, rfl, ?_, ?_, fun ha => ?_⟩
  · rw [envStep_phase, hdone]; rfl
  · rwa [envStep_env cfg _ hm]
  · rwa [envStep_targetCutoff cfg _ hm ha]

/-- Settles O32: the progress is infinite, so the phase ends. -/
theorem zeroDurationAfterItsStartCompletes : Obligations.ZeroDurationAfterItsStartCompletes := by
  intro s r t hb hphase ht0 ht hlt hdur
  have hdone := envDone_of_zero ht0 ht hlt hdur
  refine ⟨_, _, exec_advanceEnv t hb, rfl, ?_, ?_⟩
  · rw [envStep_env cfg t (Phase.moves_iff.mpr hphase), envRun_cur, envProgress_of_done hdone]
    rfl
  · rw [envStep_phase, hdone]
    refine ⟨fun h => ?_, fun h => ?_, fun h => ?_⟩ <;> rw [h] <;> rfl

end Sys2Proof.Machine
end

section
/-! The registers that `SET_CUTOFF` and `SET_RESONANCE` write (spec/46_control_commands.md R191 and R192): O18 and O19. Both
end by computing the coefficients from the live values, which neither of them writes. -/

namespace Sys2Proof.Machine

/-- Settles O18: the writes of R191, whose target keeps its choice by `envActive`. -/
theorem setCutoffResult : Obligations.SetCutoffResult :=
  fun _ _ value hb => State.command_ready (setCutoff cfg value) hb

/-- Settles O19: the writes of R192. -/
theorem setResonanceResult : Obligations.SetResonanceResult :=
  fun _ _ value hb => State.command_ready (setResonance cfg value) hb

end Sys2Proof.Machine
end

section
/-! The block goes on from every state and is initialised by `INIT` alone (spec/60_exceptions.md R205 and R208,
spec/70_reset_and_hazards.md R222 and R230), and a NaN stays in the smoother (R232): O14, O15 and O45. -/

namespace Sys2Proof.Machine

/-! ### Every step answers a next state (R208, R230) -/

/-- A command answers `OK` or is refused with a status: there is no third end. -/
theorem exec_exists_next (i : Instr) (s : State) : ∃ t, exec i s = .next t := by
  cases hb : s.block with
  | uninit =>
    rw [exec_uninit i hb]
    split
    · exact ⟨_, rfl⟩
    · split <;> exact ⟨_, rfl⟩
  | ready r =>
    rw [exec_ready i hb]
    split <;> exact ⟨_, rfl⟩

/-- The consumption of a packet goes on when every command does. -/
theorem State.consume_exists_next {run : Instr → State → Outcome} (hrun : ∀ i s, ∃ t, run i s = .next t) (s : State)
    (p : Packet) : ∃ t, s.consume p run = .next t := by
  cases p with
  | command i rest => exact hrun i { s with port := rest }
  | malformed k rest => exact ⟨_, rfl⟩
  | incomplete => exact ⟨_, rfl⟩

/-- Settles O14: the packet is a command, refused or incomplete, and each of the three goes on. -/
theorem stepAlwaysGoesOn : Obligations.StepAlwaysGoesOn :=
  fun s => s.consume_exists_next exec_exists_next (decode s.port)

/-! ### `Uninit` and `Ready` (R205, R222) -/

/-- Before the first `INIT` every other command is refused, whatever its length, and writes no register. -/
theorem exec_keeps_uninit {i : Instr} {s t : State} (hb : s.block = .uninit) (hinit : i ≠ .init)
    (h : exec i s = .next t) : t.block = .uninit := by
  rw [exec_uninit i hb, if_neg hinit] at h
  split at h <;> (cases h; exact hb)

/-- An answer holds registers, and a refusal leaves those of before. -/
theorem exec_keeps_ready {i : Instr} {s t : State} {r : Regs} (hb : s.block = .ready r) (h : exec i s = .next t) :
    ∃ r', t.block = .ready r' := by
  rcases exec_next_cases hb h with rfl | ⟨samples, -, rfl⟩
  · exact ⟨_, State.answer_block ..⟩
  · exact ⟨r, hb⟩

/-- Settles O15: only a command that runs can change the block, and it runs on the block as it stood. -/
theorem onlyInitLeavesUninit : Obligations.OnlyInitLeavesUninit := by
  intro s t h
  rcases step_cases h with ⟨-, rfl⟩ | ⟨k, rest, -, rfl⟩ | ⟨i, rest, hdec, he⟩
  · exact ⟨.inl, id⟩
  · exact ⟨.inl, id⟩
  · refine ⟨fun hb => ?_, fun ⟨_, hb⟩ => exec_keeps_ready (s := { s with port := rest }) hb he⟩
    by_cases hinit : i = .init
    · exact .inr ⟨rest, hinit ▸ hdec⟩
    · exact .inl (exec_keeps_uninit (s := { s with port := rest }) hb hinit he)

/-! ### A NaN in the smoother (R131, R232) -/

/-- The live value is an operand of the outer sum, and the target of the difference inside it. -/
theorem approach_nan {live target : F32} (coefficient : F32) (h : live.isNaN = true ∨ target.isNaN = true) :
    (approach live target coefficient).isNaN = true :=
  F32.add_nan (h.imp_right fun htarget => F32.mul_nan (.inl (F32.sub_nan (.inl htarget))))

/-- Once the live value is a NaN, no later target brings it back. -/
theorem approach_stays_nan {live target : Nat → F32} {coefficient : F32}
    (hlive : ∀ n, live (n + 1) = approach (live n) (target n) coefficient)
    (h : (live 0).isNaN = true ∨ (target 0).isNaN = true) (n : Nat) : (live (n + 1)).isNaN = true := by
  rw [hlive]
  induction n with
  | zero => exact approach_nan coefficient h
  | succ n ih => exact approach_nan coefficient (.inl (by rwa [hlive]))

/-- Settles O45: cutoff and resonance each approach their own target by the same rule. -/
theorem smoothingKeepsNaN : Obligations.SmoothingKeepsNaN :=
  fun p hp =>
    ⟨approach_stays_nan (live := fun n => (p n).liveCutoff) (target := fun n => (p n).targetCutoff) fun n => (hp n).1,
      approach_stays_nan (live := fun n => (p n).liveRes) (target := fun n => (p n).targetRes) fun n => (hp n).2⟩

end Sys2Proof.Machine
end
